-- ==== Sys2Proof/Word.lean ====
section
/-! DEFINITION. The word types of the block (00_scope.md R7, R8): bytes of the two memories and
16-bit words of the stream. -/

namespace Sys2Proof

/-- One byte of the stream or the canvas (20_memory.md R50: a location is 8 bits wide). -/
abbrev Byte := BitVec 8

/-- A 16-bit word of the stream: a command word or a DCOPY offset word (00_scope.md R7, `WORD_BITS`). -/
abbrev Word := BitVec 16

end Sys2Proof
end

