-- ==== Sys2Proof/Config.lean ====
section
/-! DEFINITION. What is fixed for every machine (00_scope.md R7) and the free values, which are
opaque constants without a body: no proof can learn what they are. -/

namespace Sys2Proof.Config

/-- `BANK_SIZE` (00_scope.md R7; 20_memory.md R59). -/
def bankSize : Nat := 0x10000

/-- `MAX_LEN`, the largest count that LIT, SKIP and DCOPY encode (00_scope.md R7; 30_encoding.md R84). -/
def maxLen : Nat := 16384

/-- `OFFSET_BIAS` (00_scope.md R7; 30_encoding.md R85). -/
def offsetBias : Word := 0x2000#16

/-- The largest canvas, and so the number of canvas indices that exist (20_memory.md R50). -/
def maxFrameSize : Nat := 65536

/-- The number of stream offsets that exist: `SLEN_L` is at most 2^32 − 1 (20_memory.md R50). -/
def maxStreamLen : Nat := 2 ^ 32 - 1

/-- `PERIOD_MAX` of the Matcher (00_scope.md R7; 45_matcher.md R153). -/
def periodMax : Nat := 4096

/-- FREE VALUE (93_implementation_defined.md I13 and I20, log 1): what a stream offset holds before
the host has loaded it. -/
opaque unloadedStream : Nat → Byte

/-- FREE VALUE (93_implementation_defined.md I13, log 1): what a canvas index holds before the host
or an opcode has written it. -/
opaque unloadedCanvas : Nat → Byte

/-- FREE VALUE (93_implementation_defined.md I14, log 2): the k-th byte of an opcode that a reset
interrupted. -/
opaque interruptedByte : Nat → Byte

end Sys2Proof.Config
end

