-- ==== Sys2Proof/Syntax.lean ====
section
/-! DEFINITION. The instruction set: one constructor per row of the opcode map (30_encoding.md R91). -/

namespace Sys2Proof

/-- One opcode with all its operands (30_encoding.md R80, R81): the fields of the command word that
its class leaves free, and its payload. -/
inductive Instr where
  /-- LIT, format L: the literal bytes; the count field is their number less one (R101). -/
  | lit (payload : List Byte)
  /-- SKIP, format W: the count field `L` (R106). -/
  | skip (count : BitVec 14)
  /-- DCOPY, format D: the count field `L` and the offset word `O` as it stands in the stream (R111). -/
  | dcopy (count : BitVec 14) (offset : Word)
  /-- BSKIP, the word 0x0000 (R130). -/
  | bskip
  /-- EOF, the word 0x0002 (R134). -/
  | eof
  /-- EOA, the word 0x0006 (R137). -/
  | eoa
  /-- RESERVED: the bits 14..1 of a word whose bits 15 and 0 are 0 and which is no control word (R139). -/
  | reserved (count : BitVec 14)
  deriving DecidableEq, Repr

end Sys2Proof
end

