-- ==== Sys2Proof/Machine/State.lean ====
section
/-! DEFINITION. The state of the machine (10_state.md), its reset value, and why a step can stop. -/

namespace Sys2Proof.Machine

/-- `STATE` (10_state.md R22). -/
inductive FsmState where
  | idle | running | endOfFrame | endOfAnimation | error
  deriving DecidableEq, Repr

/-- The error causes held in `OUT_ERR_CODE` (60_exceptions.md R180). -/
inductive ErrorCode where
  | none | reserved | stream | dest | src | bank | config
  deriving DecidableEq, Repr

/-- A memory: (address, byte) pairs at strictly rising addresses. An address that is not listed has
no value in the list; what the machine reads there is a free value (log 1). -/
abbrev Memory := List Host.Cell

/-- The canonical form of a memory: addresses strictly rising, so that none is listed twice. -/
abbrev Memory.wf (m : Memory) : Prop := m.Pairwise (fun x y => x.1 < y.1)

/-- What the host may do next (10_state.md R37; 70_reset_and_hazards.md). -/
inductive HostMove where
  /-- the host waits while the decoder takes its turn -/
  | wait
  /-- configure: write `CFG_FRAME_SIZE` -/
  | writeFrameSize (value : BitVec 17)
  /-- configure: write `CFG_STREAM_LEN` -/
  | writeStreamLen (value : BitVec 32)
  /-- configure: write `CFG_START` -/
  | writeStart (value : BitVec 32)
  /-- configure: write `CFG_STRICT_BANKS` -/
  | writeStrictBanks (value : Bool)
  /-- load: put a byte into the stream -/
  | loadStream (offset : Nat) (value : Byte)
  /-- load: put a byte into the canvas -/
  | loadCanvas (index : Nat) (value : Byte)
  /-- start: `CMD_START` -/
  | start
  /-- read the status outputs or the configuration fields (no side effect) -/
  | readOutputs
  /-- collect: read a canvas byte and rely on it (no side effect) -/
  | readCanvas (index : Nat)
  /-- collect: read a stream byte (no side effect) -/
  | readStream (offset : Nat)
  /-- reset between two opcodes -/
  | reset
  /-- reset inside the opcode that the decoder is executing -/
  | resetMidOpcode
  deriving DecidableEq, Repr

/-- The state of the machine: the registers of 10_state.md R22, R25, R26, R28, R31 and R32, the two
memories of 20_memory.md R50, and two fields of the model's own (`inbox`, log 3; `draws`, log 2).
`ST_STATE`, `ST_DONE`, `OUT_CURSOR` and `OUT_RP` mirror other registers (R32): Machine/Flags.lean. -/
structure State where
  /-- `STATE` (R22) -/
  fsm : FsmState
  /-- `CURSOR` (R25) -/
  cursor : BitVec 17
  /-- `RP` (R26) -/
  rp : BitVec 33
  /-- `START_L` (R28) -/
  startL : BitVec 32
  /-- `FSIZE_L` (R28) -/
  fsizeL : BitVec 17
  /-- `SLEN_L` (R28) -/
  slenL : BitVec 32
  /-- `STRICT_L` (R28) -/
  strictL : Bool
  /-- `OUT_CONSUMED` (R32) -/
  outConsumed : BitVec 33
  /-- `OUT_ERR_CODE` (R32) -/
  outErrCode : ErrorCode
  /-- `OUT_ERR_OFFSET` (R32) -/
  outErrOffset : BitVec 33
  /-- `CFG_FRAME_SIZE` (R31) -/
  cfgFrameSize : BitVec 17
  /-- `CFG_STREAM_LEN` (R31) -/
  cfgStreamLen : BitVec 32
  /-- `CFG_START` (R31) -/
  cfgStart : BitVec 32
  /-- `CFG_STRICT_BANKS` (R31) -/
  cfgStrictBanks : Bool
  /-- `S`, the stream (20_memory.md R51) -/
  stream : Memory
  /-- `C`, the canvas (20_memory.md R52) -/
  canvas : Memory
  /-- the model's own: the host's coming moves, the next one first (log 3) -/
  inbox : List HostMove
  /-- the model's own: how many free values have been drawn (log 2) -/
  draws : Nat
  deriving DecidableEq, Repr

/-- The machine after reset (10_state.md R33): Idle, every register 0, no byte of either memory
known. `inbox` and `draws` are the model's own (DESIGN CHOICE, logs 3 and 2). -/
def State.reset : State where
  fsm := .idle
  cursor := 0
  rp := 0
  startL := 0
  fsizeL := 0
  slenL := 0
  strictL := false
  outConsumed := 0
  outErrCode := .none
  outErrOffset := 0
  cfgFrameSize := 0
  cfgStreamLen := 0
  cfgStart := 0
  cfgStrictBanks := false
  stream := []
  canvas := []
  inbox := []
  draws := 0

/-- Why the machine stops with a fault. The block's own errors are no faults: they enter the Error
state (60_exceptions.md R184). -/
inductive Fault where
  /-- The host's move `loadStream` or `readStream` names an offset that the stream space does not have (20_memory.md
  R50: offsets up to 2^32 − 2). Safe: nothing is claimed of such a host (log 14). -/
  | noSuchStreamOffset
  /-- The host's move `loadCanvas` or `readCanvas` names an index that the canvas space does not have
  (20_memory.md R50: indices up to 65535). Safe: nothing is claimed of such a host (log 14). -/
  | noSuchCanvasIndex
  deriving DecidableEq, Repr

/-- Why the machine refuses to go on. -/
inductive Refusal where
  /-- Raised by an arm of `exec` for an instruction without a meaning; no arm raises it. Safe. -/
  | notModelled (mnemonic : String)
  /-- The host's moves `loadStream`, `loadCanvas`, `readCanvas` and `readStream` while Running break
  its duty or are none of its liberties, and the spec gives such a run no meaning
  (70_reset_and_hazards.md R215; 10_state.md R37; 93_implementation_defined.md I17). Safe (log 4). -/
  | hostTouchesMemoryWhileRunning
  deriving DecidableEq, Repr

end Sys2Proof.Machine
end

