-- ==== Sys2Proof/Machine/Flags.lean ====
section
/-! DEFINITION. The block has no condition flags (10_state.md R30). Its only status is `STATE` and the
output registers of R32; this file holds the outputs that mirror or encode other registers. -/

namespace Sys2Proof.Machine

/-- The 3-bit value of `STATE` (10_state.md R22). -/
def fsmBits : FsmState → BitVec 3
  | .idle => 0
  | .running => 1
  | .endOfFrame => 2
  | .endOfAnimation => 3
  | .error => 4

/-- The 3-bit value held in `OUT_ERR_CODE` (60_exceptions.md R180). -/
def errorBits : ErrorCode → BitVec 3
  | .none => 0
  | .reserved => 1
  | .stream => 2
  | .dest => 3
  | .src => 4
  | .bank => 5
  | .config => 6

/-- EndOfFrame, EndOfAnimation and Error are the terminal states (10_state.md R22). -/
def isTerminal : FsmState → Bool
  | .idle => false
  | .running => false
  | .endOfFrame => true
  | .endOfAnimation => true
  | .error => true

/-- The status outputs as the host reads them (10_state.md R32). -/
structure Outputs where
  stState : BitVec 3
  stDone : Bool
  outConsumed : BitVec 33
  outErrCode : BitVec 3
  outErrOffset : BitVec 33
  outCursor : BitVec 17
  outRp : BitVec 33
  deriving DecidableEq, Repr

/-- What the host reads in state `s` (10_state.md R32); a read changes nothing (20_memory.md R56). -/
def readOutputs (s : State) : Outputs where
  stState := fsmBits s.fsm
  stDone := isTerminal s.fsm
  outConsumed := s.outConsumed
  outErrCode := errorBits s.outErrCode
  outErrOffset := s.outErrOffset
  outCursor := s.cursor
  outRp := s.rp

end Sys2Proof.Machine
end

