-- ==== Sys2Proof/WellFormed.lean ====
section
/-! DEFINITION. Which terms of `Instr` an encoding spells. -/

namespace Sys2Proof

/-- A LIT has 1 to 16384 literal bytes (30_encoding.md R84: "length 0 is illegal"; R88: more than
16384 is not representable). -/
def Instr.payloadFits (payload : List Byte) : Bool :=
  decide (1 ≤ payload.length) && decide (payload.length ≤ Config.maxLen)

/-- `L` of a reserved word is none of 0, 1 and 3, which spell BSKIP, EOF and EOA (30_encoding.md R83). -/
def Instr.isReservedField (count : BitVec 14) : Bool :=
  count != 0#14 && count != 1#14 && count != 3#14

/-- The instruction is spelled by some words of the stream. Every SKIP and DCOPY field is legal
(30_encoding.md R87). -/
def Instr.wf : Instr → Bool
  | .lit payload => Instr.payloadFits payload
  | .skip _ => true
  | .dcopy _ _ => true
  | .bskip => true
  | .eof => true
  | .eoa => true
  | .reserved count => Instr.isReservedField count

end Sys2Proof
end

