-- ==== Sys2Proof/Decode.lean ====
section
/-! DEFINITION. Command-word fields, classification, decoding and encoding (30_encoding.md). -/

namespace Sys2Proof

/-- Kind bit `K`, bit 15 (30_encoding.md R81). -/
def kindBit (w : Word) : Bool := w.getLsbD 15

/-- Tag bit `T`, bit 0 (30_encoding.md R81). -/
def tagBit (w : Word) : Bool := w.getLsbD 0

/-- Count field `L`, bits 14..1 (30_encoding.md R81). -/
def countField (w : Word) : BitVec 14 := w.extractLsb' 1 14

/-- A word from its two bytes, low byte first (20_memory.md R53). -/
def leWord (lo hi : Byte) : Word := hi ++ lo

/-- The two bytes of a word, low byte first (20_memory.md R53; 30_encoding.md R88). -/
def leBytes (w : Word) : List Byte := [w.extractLsb' 0 8, w.extractLsb' 8 8]

/-- The classes of a command word (30_encoding.md R83). -/
inductive OpClass where
  | lit | skip | dcopy | bskip | eof | eoa | reserved
  deriving DecidableEq, Repr

/-- `Classify` (30_encoding.md R83): by `T` and `K`, then the three control words by exact value. -/
def classify (w : Word) : OpClass :=
  match tagBit w, kindBit w with
  | true, false => .lit
  | true, true => .skip
  | false, true => .dcopy
  | false, false =>
    if w = 0x0000#16 then .bskip
    else if w = 0x0002#16 then .eof
    else if w = 0x0006#16 then .eoa
    else .reserved

/-- One row of the opcode map (30_encoding.md R83, R91): a word belongs to the row if it agrees with
`pattern` under `mask` and is not excluded. -/
structure OpcodeRow where
  opClass : OpClass
  pattern : Word
  mask : Word
  excluded : List Word
  deriving DecidableEq, Repr

/-- The opcode map of 30_encoding.md R91. -/
def opcodeMap : List OpcodeRow :=
  [ ⟨.lit, 0x0001#16, 0x8001#16, []⟩,
    ⟨.skip, 0x8001#16, 0x8001#16, []⟩,
    ⟨.dcopy, 0x8000#16, 0x8001#16, []⟩,
    ⟨.bskip, 0x0000#16, 0xFFFF#16, []⟩,
    ⟨.eof, 0x0002#16, 0xFFFF#16, []⟩,
    ⟨.eoa, 0x0006#16, 0xFFFF#16, []⟩,
    ⟨.reserved, 0x0000#16, 0x8001#16, [0x0000#16, 0x0002#16, 0x0006#16]⟩ ]

/-- The word belongs to the row. -/
def rowMatches (row : OpcodeRow) (w : Word) : Bool :=
  (w &&& row.mask == row.pattern) && !row.excluded.contains w

/-- How many bytes the opcode takes, told from its command word alone (30_encoding.md R82). -/
def opcodeLength (w : Word) : Nat :=
  if tagBit w && !kindBit w then 2 + (countField w).toNat + 1
  else if !tagBit w && kindBit w then 4
  else 2

/-- Why the decoder rejects a list of bytes: it ends inside an opcode. -/
inductive DecodeReject where
  /-- fewer than the two bytes of a command word -/
  | truncatedWord
  /-- fewer literal bytes than the count of a LIT -/
  | truncatedPayload
  /-- fewer than the two bytes of a DCOPY offset word -/
  | truncatedOffsetWord
  deriving DecidableEq, Repr

/-- The first `n` bytes and the rest, or nothing if there are fewer. -/
def takeBytes : Nat → List Byte → Option (List Byte × List Byte)
  | 0, bytes => some ([], bytes)
  | _ + 1, [] => none
  | n + 1, b :: bytes =>
    match takeBytes n bytes with
    | some (taken, rest) => some (b :: taken, rest)
    | none => none

/-- The instruction at the head of a list of bytes and the bytes after it (30_encoding.md R80 to R85).
Every command word decodes, a reserved one to `reserved`; only a truncated opcode is rejected. -/
def decode : List Byte → Except DecodeReject (Instr × List Byte)
  | lo :: hi :: rest =>
    let w := leWord lo hi
    match classify w with
    | .lit =>
      match takeBytes ((countField w).toNat + 1) rest with
      | some (payload, rest') => .ok (.lit payload, rest')
      | none => .error .truncatedPayload
    | .skip => .ok (.skip (countField w), rest)
    | .dcopy =>
      match rest with
      | olo :: ohi :: rest' => .ok (.dcopy (countField w) (leWord olo ohi), rest')
      | _ => .error .truncatedOffsetWord
    | .bskip => .ok (.bskip, rest)
    | .eof => .ok (.eof, rest)
    | .eoa => .ok (.eoa, rest)
    | .reserved => .ok (.reserved (countField w), rest)
  | _ => .error .truncatedWord

/-- The command word of an instruction (30_encoding.md R88; a reserved word from its bits 14..1, R83). -/
def commandWord : Instr → Word
  | .lit payload => (BitVec.ofNat 16 (payload.length - 1) <<< 1) ||| 0x0001#16
  | .skip count => 0x8000#16 ||| (count.setWidth 16 <<< 1) ||| 0x0001#16
  | .dcopy count _ => 0x8000#16 ||| (count.setWidth 16 <<< 1)
  | .bskip => 0x0000#16
  | .eof => 0x0002#16
  | .eoa => 0x0006#16
  | .reserved count => count.setWidth 16 <<< 1

/-- What follows the command word: the literal bytes of LIT, the offset word of DCOPY (30_encoding.md
R80, R88). -/
def encodedPayload : Instr → List Byte
  | .lit payload => payload
  | .skip _ => []
  | .dcopy _ offset => leBytes offset
  | .bskip => []
  | .eof => []
  | .eoa => []
  | .reserved _ => []

/-- The bytes an opcode occupies (30_encoding.md R80). -/
def sizeOfInstr (i : Instr) : Nat := 2 + (encodedPayload i).length

/-- The class of an instruction (30_encoding.md R83). -/
def classOf : Instr → OpClass
  | .lit _ => .lit
  | .skip _ => .skip
  | .dcopy _ _ => .dcopy
  | .bskip => .bskip
  | .eof => .eof
  | .eoa => .eoa
  | .reserved _ => .reserved

/-- The bytes of an instruction in stream order (30_encoding.md R88). -/
def encode (i : Instr) : List Byte := leBytes (commandWord i) ++ encodedPayload i

/-- The lowest `n` bytes of a number, the least significant first. -/
def bytesOfNat : Nat → Nat → List Byte
  | 0, _ => []
  | n + 1, w => BitVec.ofNat 8 w :: bytesOfNat n (w / 256)

/-- An opcode-table word laid out as the stream stores it: bit 0 is the least significant bit of the
first byte, `nbits` bits are given, and every later bit of the instruction is 0. -/
def tableBytes (nbits w : Nat) : List Byte :=
  let given := w % 2 ^ nbits
  bytesOfNat (max (nbits / 8) (opcodeLength (BitVec.ofNat 16 given))) given

/-- The instruction the decoder reads from an opcode-table word. -/
def decodeTableWord (nbits w : Nat) : Option Instr :=
  match decode (tableBytes nbits w) with
  | .ok (i, _) => some i
  | .error _ => none

end Sys2Proof
end

