-- ==== Sys2Proof/Machine/Operands.lean ====
section
/-! DEFINITION. What the operand fields of an opcode stand for (30_encoding.md section 3). -/

namespace Sys2Proof.Machine

/-- `n = L + 1` (30_encoding.md R84). -/
def countOf (field : BitVec 14) : Nat := field.toNat + 1

/-- `src = (O − 0x2000) mod 2^16` (30_encoding.md R85). -/
def srcOf (offset : Word) : Nat := (offset - Config.offsetBias).toNat

/-- How many canvas bytes, from `CURSOR` on, the opcode writes when it completes (40_data_opcodes.md
R117). -/
def writeCount : Instr → Nat
  | .lit payload => payload.length
  | .skip _ => 0
  | .dcopy count _ => countOf count
  | .bskip => 0
  | .eof => 0
  | .eoa => 0
  | .reserved _ => 0

end Sys2Proof.Machine
end

