-- ==== Sys2Proof/Machine/Ops.lean ====
section
/-! DEFINITION. The shared operations over memories and registers, the checks of an opcode, and
`raise DecodeError`. -/

namespace Sys2Proof.Machine

/-! ### Memories as data -/

/-- The byte listed at an address, if there is one. -/
def lookup : Memory → Nat → Option Byte
  | [], _ => none
  | (k, v) :: m, a => if k = a then some v else lookup m a

/-- The memory with `v` at address `a`, in canonical form. -/
def store : Memory → Nat → Byte → Memory
  | [], a, v => [(a, v)]
  | (k, w) :: m, a, v =>
    if a < k then (a, v) :: (k, w) :: m
    else if a = k then (a, v) :: m
    else (k, w) :: store m a v

/-! ### The two address spaces (00_scope.md R10; 20_memory.md R50) -/

/-- A byte of a stream memory; one that was never loaded is a free value (log 1). -/
def streamByte (m : Memory) (a : Nat) : Byte := (lookup m a).getD (Config.unloadedStream a)

/-- A byte of a canvas memory; one that was never written is a free value (log 1). -/
def canvasByte (m : Memory) (a : Nat) : Byte := (lookup m a).getD (Config.unloadedCanvas a)

/-- `MemRead_S(a, 1)`. -/
def readStream (s : State) (a : Nat) : Byte := streamByte s.stream a

/-- `MemRead_S(a, 2)`, little-endian (20_memory.md R53). -/
def readStreamWord (s : State) (a : Nat) : Word := leWord (readStream s a) (readStream s (a + 1))

/-- The `n` stream bytes from `a` on, in stream order. -/
def readStreamRun (s : State) (a : Nat) : Nat → List Byte
  | 0 => []
  | n + 1 => readStream s a :: readStreamRun s (a + 1) n

/-- `MemRead_C(a, 1)`. -/
def readCanvas (s : State) (a : Nat) : Byte := canvasByte s.canvas a

/-- Bytes written to a memory one after another at rising addresses (20_memory.md R62). -/
def storeRun : Memory → Nat → List Byte → Memory
  | m, _, [] => m
  | m, a, b :: bytes => storeRun (store m a b) (a + 1) bytes

/-- The byte transfers of a DCOPY, one at a time, lowest index first; each reads the canvas after the
one before it has written (40_data_opcodes.md R112, R114). -/
def copyForward : Nat → Memory → Nat → Nat → Memory
  | 0, m, _, _ => m
  | n + 1, m, src, dst => copyForward n (store m dst (canvasByte m src)) (src + 1) (dst + 1)

/-! ### Banks (00_scope.md R12) -/

/-- The bank of a stream offset. -/
def bankOf (a : Nat) : Nat := a >>> 16

/-- The first offset of the bank after the one that holds `a` (00_scope.md R12; 41_control_opcodes.md
R131): `(a & ~0xFFFF) + 0x10000` in 33 bits. -/
def nextBank (a : BitVec 33) : BitVec 33 := (a &&& ~~~0xFFFF#33) + 0x10000#33

/-! ### The checks of an opcode at `RP` (60_exceptions.md R183) -/

/-- E_STREAM: an opcode of `len` bytes at `RP` runs past the stream (20_memory.md R57). -/
def streamShort (s : State) (len : Nat) : Bool := decide (s.slenL.toNat < s.rp.toNat + len)

/-- E_BANK, the test of `BankCheck` (40_data_opcodes.md R100; 60_exceptions.md R182). -/
def crossesBank (s : State) (len : Nat) : Bool :=
  s.strictL && (bankOf s.rp.toNat != bankOf (s.rp.toNat + len - 1))

/-- E_DEST: `n` bytes from `CURSOR` on run past the canvas (40_data_opcodes.md R103, R108, R113). -/
def destOverrun (s : State) (n : Nat) : Bool := decide (s.fsizeL.toNat < s.cursor.toNat + n)

/-- E_SRC: `n` bytes from `src` on run past the canvas (40_data_opcodes.md R113). -/
def srcOverrun (s : State) (src n : Nat) : Bool := decide (s.fsizeL.toNat < src + n)

/-- `raise DecodeError(code, a)` with `a = RP`: the one way into the Error state from Running
(60_exceptions.md R184). Nothing else changes. -/
def decodeError (code : ErrorCode) (s : State) : State :=
  { s with outErrCode := code, outErrOffset := s.rp, fsm := .error }

/-- The checks in order: the first that fails raises its error and nothing of the opcode happens
(60_exceptions.md R183, R185); when none fails the opcode's effect `done` happens. -/
def guarded : List (ErrorCode × Bool) → State → State → State
  | [], _, done => done
  | (code, fails) :: checks, s, done =>
    if fails then decodeError code s else guarded checks s done

/-! ### Completing an opcode -/

/-- `CURSOR <- CURSOR + n` and `RP <- a + len` (10_state.md R25, R27). -/
def advance (n len : Nat) (s : State) : State :=
  { s with cursor := BitVec.ofNat 17 (s.cursor.toNat + n), rp := BitVec.ofNat 33 (s.rp.toNat + len) }

/-- What EOF and EOA do: `RP <- a + 2`, `OUT_CONSUMED <- RP − START_L`, and the terminal state
(41_control_opcodes.md R134, R135, R137). -/
def endRun (terminal : FsmState) (s : State) : State :=
  { s with
    rp := BitVec.ofNat 33 (s.rp.toNat + 2)
    outConsumed := BitVec.ofNat 33 (s.rp.toNat + 2 - s.startL.toNat)
    fsm := terminal }

end Sys2Proof.Machine
end

