-- ==== Sys2Proof/Machine/ControlOps.lean ====
section
/-! DEFINITION. The stream-control opcodes BSKIP, EOF and EOA, and the reserved words
(41_control_opcodes.md). -/

namespace Sys2Proof.Machine

/-- BSKIP (41_control_opcodes.md R131, R132). -/
def execBskip (s : State) : Host.Outcome State Fault Refusal :=
  .next (guarded [(.bank, crossesBank s 2)] s { s with rp := nextBank s.rp })

/-- EOF (41_control_opcodes.md R134, R135). -/
def execEof (s : State) : Host.Outcome State Fault Refusal :=
  .next (guarded [(.bank, crossesBank s 2)] s (endRun .endOfFrame s))

/-- EOA (41_control_opcodes.md R137, R135). -/
def execEoa (s : State) : Host.Outcome State Fault Refusal :=
  .next (guarded [(.bank, crossesBank s 2)] s (endRun .endOfAnimation s))

/-- A reserved word raises E_RESERVED, whatever its bits 14..1 (41_control_opcodes.md R139). -/
def execReserved (_count : BitVec 14) (s : State) : Host.Outcome State Fault Refusal :=
  .next (decodeError .reserved s)

end Sys2Proof.Machine
end

