-- ==== Sys2Proof/Machine/DataOps.lean ====
section
/-! DEFINITION. The data opcodes LIT, SKIP and DCOPY (40_data_opcodes.md). -/

namespace Sys2Proof.Machine

/-- LIT (40_data_opcodes.md R102, R103). The payload is the n bytes after the command word. -/
def execLit (payload : List Byte) (s : State) : Host.Outcome State Fault Refusal :=
  let n := payload.length
  .next (guarded
    [(.stream, streamShort s (2 + n)), (.bank, crossesBank s (2 + n)), (.dest, destOverrun s n)] s
    (advance n (2 + n) { s with canvas := storeRun s.canvas s.cursor.toNat payload }))

/-- SKIP (40_data_opcodes.md R107, R108). -/
def execSkip (count : BitVec 14) (s : State) : Host.Outcome State Fault Refusal :=
  let n := countOf count
  .next (guarded [(.bank, crossesBank s 2), (.dest, destOverrun s n)] s (advance n 2 s))

/-- DCOPY (40_data_opcodes.md R112, R113, R114). -/
def execDcopy (count : BitVec 14) (offset : Word) (s : State) : Host.Outcome State Fault Refusal :=
  let n := countOf count
  let src := srcOf offset
  .next (guarded
    [(.stream, streamShort s 4), (.bank, crossesBank s 4), (.dest, destOverrun s n),
      (.src, srcOverrun s src n)] s
    (advance n 4 { s with canvas := copyForward n s.canvas src s.cursor.toNat }))

end Sys2Proof.Machine
end

