-- ==== Sys2Proof/Machine/Dispatch.lean ====
section
/-! DEFINITION. The dispatch on the opcode (40_data_opcodes.md R100). -/

namespace Sys2Proof.Machine

def exec (i : Instr) (s : State) : Host.Outcome State Fault Refusal :=
  match i with
  | .lit payload => Sys2Proof.Machine.execLit payload s
  | .skip count => Sys2Proof.Machine.execSkip count s
  | .dcopy count offset => Sys2Proof.Machine.execDcopy count offset s
  | .bskip => Sys2Proof.Machine.execBskip s
  | .eof => Sys2Proof.Machine.execEof s
  | .eoa => Sys2Proof.Machine.execEoa s
  | .reserved count => Sys2Proof.Machine.execReserved count s

end Sys2Proof.Machine
end

