-- ==== Sys2Proof/Machine/Decoder.lean ====
section
/-! DEFINITION. The decoder's turn: fetch, classify, execute (40_data_opcodes.md R100). -/

namespace Sys2Proof.Machine

/-- The bytes of the opcode at `RP`, or nothing if it runs past the stream. The command word is
checked before it is read, and the rest of the opcode before any of it is read (20_memory.md R57). -/
def fetch (s : State) : Option (List Byte) :=
  if streamShort s 2 then none
  else
    let len := opcodeLength (readStreamWord s s.rp.toNat)
    if streamShort s len then none else some (readStreamRun s s.rp.toNat len)

/-- The opcode at `RP`, or nothing if it runs past the stream. -/
def fetchInstr (s : State) : Option Instr :=
  match fetch s with
  | none => none
  | some bytes =>
    match decode bytes with
    | .ok (i, _) => some i
    | .error _ => none

/-- `Step()` (40_data_opcodes.md R100). An opcode that runs past the stream raises E_STREAM at its
command word. When the block is not Running it takes no step and holds every register (10_state.md
R34, log 3). -/
def decoderStep (s : State) : Host.Outcome State Fault Refusal :=
  if s.fsm = .running then
    match fetchInstr s with
    | some i => exec i s
    | none => .next (decodeError .stream s)
  else .next s

end Sys2Proof.Machine
end

