-- ==== Sys2Proof/Machine/HostMoves.lean ====
section
/-! DEFINITION. The host's moves (10_state.md R37; 70_reset_and_hazards.md R200 to R207). -/

namespace Sys2Proof.Machine

/-- What a start command does when it is taken (70_reset_and_hazards.md R203): latch, clear, aim. -/
def latch (s : State) : State :=
  { s with
    startL := s.cfgStart
    fsizeL := s.cfgFrameSize
    slenL := s.cfgStreamLen
    strictL := s.cfgStrictBanks
    outConsumed := 0
    outErrCode := .none
    outErrOffset := 0
    cursor := 0
    rp := s.cfgStart.setWidth 33 }

/-- `CMD_START` (70_reset_and_hazards.md R203, R204, R205): ignored while Running, E_CONFIG for a
canvas above 65536 bytes, Running otherwise. -/
def startCommand (s : State) : State :=
  if s.fsm = .running then s
  else if Config.maxFrameSize < s.cfgFrameSize.toNat then
    { latch s with
      outErrCode := .config, outErrOffset := s.cfgStart.setWidth 33, fsm := .error }
  else { latch s with fsm := .running }

/-- Reset (70_reset_and_hazards.md R200): every register to its value in 10_state.md R33; the
memories keep what they hold. -/
def applyReset (s : State) : State :=
  { State.reset with stream := s.stream, canvas := s.canvas, inbox := s.inbox, draws := s.draws }

/-- The next `n` free values for interrupted bytes. -/
def drawBytes (k : Nat) : Nat → List Byte
  | 0 => []
  | n + 1 => Config.interruptedByte k :: drawBytes (k + 1) n

/-- How many canvas bytes from `CURSOR` on the opcode in progress would write: none when the block is
not Running or the opcode raises an error (60_exceptions.md R185). -/
def inProgressCount (s : State) : Nat :=
  if s.fsm = .running then
    match fetchInstr s with
    | none => 0
    | some i =>
      match exec i s with
      | .next t => if t.fsm = .error then 0 else writeCount i
      | .fault _ => 0
      | .refused _ => 0
  else 0

/-- Reset inside the opcode in progress (70_reset_and_hazards.md R200; 93_implementation_defined.md
I14): the bytes `[c, c + n)` of that opcode are free values (log 2). -/
def resetInside (s : State) : State :=
  let n := inProgressCount s
  applyReset { s with
    canvas := storeRun s.canvas s.cursor.toNat (drawBytes s.draws n)
    draws := s.draws + n }

/-- A host access to a memory: no meaning while Running (70_reset_and_hazards.md R215, log 4), and no
such address outside the space (20_memory.md R50, log 14). -/
def hostAccess (present : Bool) (missing : Fault) (s after : State) :
    Host.Outcome State Fault Refusal :=
  if s.fsm = .running then .refused .hostTouchesMemoryWhileRunning
  else if present then .next after
  else .fault missing

/-- One move of the host, or its waiting while the decoder takes its turn (10_state.md R37). The
configuration is written in every state, Running included (R31, log 16). -/
def hostTurn (move : HostMove) (s : State) : Host.Outcome State Fault Refusal :=
  match move with
  | .wait => decoderStep s
  | .writeFrameSize v => .next { s with cfgFrameSize := v }
  | .writeStreamLen v => .next { s with cfgStreamLen := v }
  | .writeStart v => .next { s with cfgStart := v }
  | .writeStrictBanks v => .next { s with cfgStrictBanks := v }
  | .loadStream a v =>
    hostAccess (decide (a < Config.maxStreamLen)) .noSuchStreamOffset s
      { s with stream := store s.stream a v }
  | .loadCanvas a v =>
    hostAccess (decide (a < Config.maxFrameSize)) .noSuchCanvasIndex s
      { s with canvas := store s.canvas a v }
  | .start => .next (startCommand s)
  | .readOutputs => .next s
  | .readCanvas a => hostAccess (decide (a < Config.maxFrameSize)) .noSuchCanvasIndex s s
  | .readStream a => hostAccess (decide (a < Config.maxStreamLen)) .noSuchStreamOffset s s
  | .reset => .next (applyReset s)
  | .resetMidOpcode => .next (resetInside s)

end Sys2Proof.Machine
end

