-- ==== Sys2Proof/Machine/Step.lean ====
section
/-! DEFINITION. One step of the machine: the host's next move, or the decoder's turn when the host has
none (log 3). -/

namespace Sys2Proof.Machine

/-- One step: the next move of `inbox`, and the decoder's turn when it is empty. -/
def step (s : State) : Host.Outcome State Fault Refusal :=
  match s.inbox with
  | [] => decoderStep s
  | move :: rest => hostTurn move { s with inbox := rest }

/-- The state with an opcode-table word stored where the decoder fetches next, and what the fetch of
it needs: Running, no host move before it, and a stream long enough (log 5). Where it would pass the
end of the stream space at `RP`, it is placed at offset 0 with the start there. -/
def State.withFetchWord (s : State) (nbits w : Nat) : State :=
  let bytes := tableBytes nbits w
  let fits := s.rp.toNat + bytes.length ≤ Config.maxStreamLen
  let a := if fits then s.rp.toNat else 0
  { s with
    fsm := .running
    inbox := []
    rp := BitVec.ofNat 33 a
    startL := if fits then s.startL else 0
    slenL := BitVec.ofNat 32 (max s.slenL.toNat (a + bytes.length))
    stream := storeRun s.stream a bytes }

end Sys2Proof.Machine
end

