-- ==== Sys2Proof/Machine/Run.lean ====
section
/-! DEFINITION. One decode: a start, then decoder steps until the block is no longer Running
(70_reset_and_hazards.md R206, R219, R220). -/

namespace Sys2Proof.Machine

/-- Decoder steps until the block is not Running, at most `fuel` of them. -/
def runDecoder : Nat → State → Host.Outcome State Fault Refusal
  | 0, s => .next s
  | fuel + 1, s =>
    if s.fsm = .running then
      match decoderStep s with
      | .next t => runDecoder fuel t
      | .fault f => .fault f
      | .refused r => .refused r
    else .next s

/-- The bound of 70_reset_and_hazards.md R219 on the decoder steps from a Running state. -/
def stepBound (s : State) : Nat := max 1 (s.slenL.toNat - s.rp.toNat)

/-- `DecodeFrame()` (70_reset_and_hazards.md R206), with the steps that R219 allows. -/
def decodeFrame (s : State) : Host.Outcome State Fault Refusal :=
  runDecoder (stepBound (startCommand s)) (startCommand s)

end Sys2Proof.Machine
end

