-- ==== Sys2Proof/Machine/Container.lean ====
section
/-! DEFINITION. The container facts the host needs and the host's sequence for a whole animation
(70_reset_and_hazards.md R207 to R214). These are the host's, not the block's (log 13). -/

namespace Sys2Proof.Machine

/-- The little-endian number of the first `n` bytes of a list, or nothing if there are fewer. -/
def readNumber : Nat → List Byte → Option Nat
  | 0, _ => some 0
  | _ + 1, [] => none
  | n + 1, b :: bytes =>
    match readNumber n bytes with
    | some high => some (b.toNat + 256 * high)
    | none => none

/-- The fields of the file header after its magic (70_reset_and_hazards.md R210). -/
structure Header where
  fileLength : Nat
  version : Nat
  widthBytes : Nat
  height : Nat
  frameSize : Nat
  frameCount : Nat
  deriving DecidableEq, Repr

/-- "GSLA" (70_reset_and_hazards.md R210). -/
def magicBytes : List Byte := [0x47#8, 0x53#8, 0x4C#8, 0x41#8]

/-- "INIT" (70_reset_and_hazards.md R211). -/
def initTag : List Byte := [0x49#8, 0x4E#8, 0x49#8, 0x54#8]

/-- "ANIM" (70_reset_and_hazards.md R211). -/
def animTag : List Byte := [0x41#8, 0x4E#8, 0x49#8, 0x4D#8]

/-- The 20-byte header, its fields at the offsets of 70_reset_and_hazards.md R210; nothing for a bad
magic or a file length that is not the file's. -/
def parseHeader (file : List Byte) : Option Header :=
  match readNumber 4 (file.drop 4), readNumber 2 (file.drop 8), readNumber 2 (file.drop 10),
      readNumber 2 (file.drop 12), readNumber 2 (file.drop 14), readNumber 4 (file.drop 16) with
  | some fileLength, some version, some widthBytes, some height, some frameSize, some frameCount =>
    if file.take 4 = magicBytes ∧ fileLength = file.length then
      some ⟨fileLength, version, widthBytes, height, frameSize, frameCount⟩
    else none
  | _, _, _, _, _, _ => none

/-- `CFG_FRAME_SIZE` from the header: 0 is read as 65536 (70_reset_and_hazards.md R209). -/
def frameSizeOf (h : Header) : Nat := if h.frameSize = 0 then Config.maxFrameSize else h.frameSize

/-- Bit 15 of `version`: a ring frame is present (70_reset_and_hazards.md R210). -/
def hasRingFrame (h : Header) : Bool := h.version.testBit 15

/-- The file offset of the data of the first chunk with a tag, looking from `at_` on; other chunks are
skipped by their length, which includes the 8-byte chunk header (70_reset_and_hazards.md R211). R211
says nothing of repeated or reordered chunks, nor of what the host checks after the chunk it looks for:
here the first chunk of the tag counts, whatever stands before or after it, a malformed chunk on the way
to it ends the search, and nothing behind it is looked at (DESIGN CHOICE, log 22). -/
def findChunk (tag file : List Byte) : Nat → Nat → Option Nat
  | 0, _ => none
  | fuel + 1, at_ =>
    match readNumber 4 (file.drop (at_ + 4)) with
    | none => none
    | some length =>
      if length < 8 || decide (file.length < at_ + length) then none
      else if (file.drop at_).take 4 = tag then some (at_ + 8)
      else findChunk tag file fuel (at_ + length)

/-- The first `n` canvas bytes. -/
def canvasBytes (s : State) (n : Nat) : List Byte := (List.range n).map (readCanvas s)

/-- One run of the host's sequence: start at stream offset `start` on the canvas as it stands, and
expect a terminator (70_reset_and_hazards.md R212). -/
def runFrame (start : Nat) (expected : FsmState) (s : State) : Option State :=
  if 2 ^ 32 ≤ start then none
  else
    match decodeFrame { s with cfgStart := BitVec.ofNat 32 start } with
    | .next t => if t.fsm = expected then some t else none
    | .fault _ => none
    | .refused _ => none

/-- The ANIM runs: `remaining` streams from offset `start` on, each against the canvas the one before
it left; the last ends with EOA and the others with EOF (70_reset_and_hazards.md R212, R213). -/
def animRuns : Nat → Nat → Nat → State → Option (List (List Byte))
  | 0, _, _, _ => some []
  | remaining + 1, frameSize, start, s =>
    match runFrame start (if remaining = 0 then .endOfAnimation else .endOfFrame) s with
    | none => none
    | some t =>
      match animRuns remaining frameSize (start + t.outConsumed.toNat) t with
      | none => none
      | some canvases => some (canvasBytes t frameSize :: canvases)

/-- The block as the host sets it up for a file: the stream from file byte `streamBase` on, the
configuration, and a canvas of zeros (70_reset_and_hazards.md R207, R209). How many bytes the host
makes readable is its own choice in R209: here it is the whole rest of the file, so a run may read past
the end of its chunk (DESIGN CHOICE, log 21). -/
def loadedState (streamBase frameSize : Nat) (strict : Bool) (file : List Byte) : State :=
  { State.reset with
    stream := storeRun [] 0 (file.drop streamBase)
    canvas := storeRun [] 0 (List.replicate frameSize 0#8)
    cfgFrameSize := BitVec.ofNat 17 frameSize
    cfgStreamLen := BitVec.ofNat 32 (file.length - streamBase)
    cfgStrictBanks := strict }

/-- `LoadAnimation(file)` (70_reset_and_hazards.md R213): the canvases, or nothing where the host
rejects the file. `accepts` is the host's rejection of versions and geometries (93_implementation_defined.md
I5, log 13), `streamBase` the file byte that stream offsets count from (`STREAM_BASE`, R208, R214, log 8). -/
def loadAnimation (accepts : Header → Bool) (streamBase : Nat) (strict : Bool)
    (file : List Byte) : Option (List (List Byte)) :=
  match parseHeader file, findChunk initTag file file.length 20,
      findChunk animTag file file.length 20 with
  | some h, some initAt, some animAt =>
    let frameSize := frameSizeOf h
    if !accepts h || decide (initAt < streamBase) || decide (animAt < streamBase) then none
    else
      match runFrame (initAt - streamBase) .endOfAnimation
          (loadedState streamBase frameSize strict file) with
      | none => none
      | some t =>
        match animRuns (h.frameCount - 1) frameSize (animAt - streamBase) t with
        | none => none
        | some canvases => some (canvasBytes t frameSize :: canvases)
  | _, _, _ => none

/-- The ring check: the last canvas equals the first. It is a correctness check of the host, not a
condition on the decode (70_reset_and_hazards.md R213). -/
def ringCloses (canvases : List (List Byte)) : Bool :=
  canvases.head? == canvases.getLast?

end Sys2Proof.Machine
end

