-- ==== Sys2Proof/Machine/Matcher.lean ====
section
/-! DEFINITION. The optional Matcher (45_matcher.md): a pure function from a request to a response.
It has no state and shares nothing with the decoder. -/

namespace Sys2Proof.Machine

/-- A request (45_matcher.md R151). `slen` and `dlen` are the lengths of the two memories. -/
structure MatchRequest where
  src : List Byte
  dict : List Byte
  c : BitVec 17
  extent : BitVec 17
  deriving DecidableEq, Repr

/-- The memories are of legal length: at most 65536 bytes (45_matcher.md R151). -/
def MatchRequest.wf (q : MatchRequest) : Bool :=
  decide (q.src.length ≤ Config.maxFrameSize) && decide (q.dict.length ≤ Config.maxFrameSize)

/-- `c ≤ E` and `E ≤ dlen` (45_matcher.md R151). -/
def requestValid (q : MatchRequest) : Bool :=
  decide (q.c.toNat ≤ q.extent.toNat) && decide (q.extent.toNat ≤ q.dict.length)

/-- `KIND` (45_matcher.md R151). -/
inductive MatchKind where
  | none | pattern | substring | invalid
  deriving DecidableEq, Repr

/-- The 2-bit value of `KIND` (45_matcher.md R151). -/
def matchKindBits : MatchKind → BitVec 2
  | .none => 0
  | .pattern => 1
  | .substring => 2
  | .invalid => 3

/-- A response (45_matcher.md R151). -/
structure MatchResponse where
  kind : MatchKind
  len : BitVec 17
  start : BitVec 16
  period : BitVec 13
  deriving DecidableEq, Repr

/-- `MemRead_SRC(i, 1)`, read only below `slen`. -/
def srcByte (q : MatchRequest) (i : Nat) : Byte := q.src.getD i 0

/-- `MemRead_DICT(j, 1)`, read only below `E`. -/
def dictByte (q : MatchRequest) (j : Nat) : Byte := q.dict.getD j 0

/-- How many of the indices `i, i + 1, …`, at most `fuel` of them, satisfy `agree` before the first
that does not. -/
def agreeRun (agree : Nat → Bool) : Nat → Nat → Nat
  | 0, _ => 0
  | fuel + 1, i => if agree i then agreeRun agree fuel (i + 1) + 1 else 0

/-- `PatLen(p)` (45_matcher.md R153). -/
def patLen (q : MatchRequest) (p : Nat) : Nat :=
  agreeRun (fun i => srcByte q i == dictByte q (q.c.toNat - p + i % p)) q.src.length 0

/-- `Bound(s)` (45_matcher.md R154). -/
def substringBound (q : MatchRequest) (s : Nat) : Nat :=
  if s < q.c.toNat then q.c.toNat - s else q.extent.toNat - s

/-- `SubLen(s)` (45_matcher.md R154). -/
def subLen (q : MatchRequest) (s : Nat) : Nat :=
  agreeRun (fun i => srcByte q i == dictByte q (s + i)) (min q.src.length (substringBound q s)) 0

/-- The loop both searches share (45_matcher.md R153, R154): candidates `x, x + 1, …`, `fuel` of them;
a strictly longer one replaces the best; a full-length one ends the search. -/
def searchLoop (measure : Nat → Nat) (full : Nat) : Nat → Nat → Nat × Nat → Nat × Nat
  | 0, _, best => best
  | fuel + 1, x, best =>
    let best' := if best.1 < measure x then (measure x, x) else best
    if best'.1 = full then best' else searchLoop measure full fuel (x + 1) best'

/-- `Pmax = min(c, slen, 4096)` (45_matcher.md R153). -/
def maxPeriod (q : MatchRequest) : Nat := min (min q.c.toNat q.src.length) Config.periodMax

/-- `PatternSearch()`: (pk, pp) (45_matcher.md R153). -/
def patternSearch (q : MatchRequest) : Nat × Nat :=
  searchLoop (patLen q) q.src.length (maxPeriod q) 1 (0, 0)

/-- `SubstringSearch()`: (sk, ss) (45_matcher.md R154). -/
def substringSearch (q : MatchRequest) : Nat × Nat :=
  searchLoop (subLen q) q.src.length q.extent.toNat 0 (0, 0)

/-- A response without a match. -/
def emptyResponse (kind : MatchKind) : MatchResponse := ⟨kind, 0, 0, 0⟩

/-- The PATTERN response for length `k` and period `p`: the copy reads from `c − p`. -/
def patternResponse (q : MatchRequest) (k p : Nat) : MatchResponse :=
  ⟨.pattern, BitVec.ofNat 17 k, BitVec.ofNat 16 (q.c.toNat - p), BitVec.ofNat 13 p⟩

/-- The SUBSTRING response for length `k` and start `s`. -/
def substringResponse (k s : Nat) : MatchResponse :=
  ⟨.substring, BitVec.ofNat 17 k, BitVec.ofNat 16 s, 0⟩

/-- `FindBestMatch()`, the reference Matcher (45_matcher.md R155). -/
def findBestMatch (q : MatchRequest) : MatchResponse :=
  if requestValid q then
    let (pk, pp) := patternSearch q
    if pk = q.src.length ∧ 0 < pk then patternResponse q pk pp
    else
      let (sk, ss) := substringSearch q
      if pk = 0 ∧ sk = 0 then emptyResponse .none
      else if sk ≤ pk then patternResponse q pk pp
      else substringResponse sk ss
  else emptyResponse .invalid

/-- The candidates `x, x + 1, …`, `fuel` of them, whose measure is `k`. -/
def maximalCandidates (measure : Nat → Nat) (k : Nat) : Nat → Nat → List Nat
  | 0, _ => []
  | fuel + 1, x =>
    if measure x = k then x :: maximalCandidates measure k fuel (x + 1)
    else maximalCandidates measure k fuel (x + 1)

/-- The candidate a draw picks from a list (93_implementation_defined.md I3). -/
def pickCandidate (draw : Nat) (candidates : List Nat) : Nat :=
  candidates.getD (draw % candidates.length) 0

/-- `MATCHER_CHOICE` (93_implementation_defined.md I3). -/
inductive MatcherChoice where
  /-- the smallest period and the lowest start -/
  | reference
  /-- a draw among the maximal candidates -/
  | any
  deriving DecidableEq, Repr

/-- A conforming Matcher that draws among the maximal candidates (45_matcher.md R156, log 9). -/
def findAnyBestMatch (draw : Nat) (q : MatchRequest) : MatchResponse :=
  if requestValid q then
    let pk := (patternSearch q).1
    let sk := (substringSearch q).1
    if pk = 0 ∧ sk = 0 then emptyResponse .none
    else if sk ≤ pk then
      patternResponse q pk (pickCandidate draw (maximalCandidates (patLen q) pk (maxPeriod q) 1))
    else
      substringResponse sk
        (pickCandidate draw (maximalCandidates (subLen q) sk q.extent.toNat 0))
  else emptyResponse .invalid

/-- The Matcher under a choice policy; the draw matters only for `any` (93_implementation_defined.md I3). -/
def findMatch (choice : MatcherChoice) (draw : Nat) (q : MatchRequest) : MatchResponse :=
  match choice with
  | .reference => findBestMatch q
  | .any => findAnyBestMatch draw q

/-- One request to the block; one that reset cancels gets no response (45_matcher.md R150, log 10). -/
def matcherRespond (choice : MatcherChoice) (draw : Nat) (cancelledByReset : Bool)
    (q : MatchRequest) : Option MatchResponse :=
  if cancelledByReset then none else some (findMatch choice draw q)

end Sys2Proof.Machine
end

