-- ==== Sys2Proof/Machine/Assembler.lean ====
section
/-! DEFINITION. The producer's side of the encoding: the assembler lines of 30_encoding.md R89, the
pseudo-instructions of R90, and the opcode a Matcher result stands for (45_matcher.md R158). Lines are
terms, not text (log 17). -/

namespace Sys2Proof.Machine

/-- One assembler line (30_encoding.md R89, R90). Counts are the operand `n`, not the field `L`, and a
dictionary offset is unbiased. -/
inductive AsmLine where
  | lit (n : Nat) (bytes : List Byte)
  | skip (n : Nat)
  | dcopy (n off : Nat)
  | bskip
  | eof
  | eoa
  | word (w : Word)
  | byte (b : Byte)
  | org (x : Nat)
  | bankpad
  | lits (n : Nat) (bytes : List Byte)
  | skips (n : Nat)
  | dcopys (n off : Nat)
  deriving DecidableEq, Repr

/-- A count the 14-bit field can hold (30_encoding.md R84, R89). -/
def countInRange (n : Nat) : Bool := decide (1 ≤ n) && decide (n ≤ Config.maxLen)

/-- The offset word of an unbiased offset: `(off + 0x2000) mod 2^16` (30_encoding.md R88). Past 65535,
where R88 and R89 give no offset, it is the word of `off mod 2^16` (DESIGN CHOICE, log 20). -/
def biasOffset (off : Nat) : Word := BitVec.ofNat 16 off + Config.offsetBias

/-- The count field of a count: `n − 1` (30_encoding.md R88). -/
def fieldOf (n : Nat) : BitVec 14 := BitVec.ofNat 14 (n - 1)

/-- Counts of 16384 and a last one that takes the remainder, `fuel` of them at most (30_encoding.md
R90). -/
def splitCount : Nat → Nat → List Nat
  | 0, _ => []
  | fuel + 1, n =>
    if n = 0 then []
    else if n ≤ Config.maxLen then [n]
    else Config.maxLen :: splitCount fuel (n - Config.maxLen)

/-- The LITs of `LITS` for the given counts (30_encoding.md R90). -/
def litPieces : List Nat → List Byte → List Instr
  | [], _ => []
  | n :: counts, bytes => .lit (bytes.take n) :: litPieces counts (bytes.drop n)

/-- The DCOPYs of `DCOPYS` for the given counts (30_encoding.md R90). The offset of a later piece may
pass 65535, and R90 does not say what then: it is taken modulo 2^16 (DESIGN CHOICE, log 20). -/
def dcopyPieces : List Nat → Nat → List Instr
  | [], _ => []
  | n :: counts, off => .dcopy (fieldOf n) (biasOffset off) :: dcopyPieces counts (off + n)

/-- The bytes of instructions one after another. -/
def encodeAll : List Instr → List Byte
  | [] => []
  | i :: is => encode i ++ encodeAll is

/-- Zero bytes from offset `here` up to offset `x`; no `.org` backwards (30_encoding.md R89). -/
def padTo (here x : Nat) : Option (List Byte) :=
  if x < here then none else some (List.replicate (x - here) 0#8)

/-- The bytes of one line at stream offset `here`, or nothing where the assembler refuses it
(30_encoding.md R89, R90). It refuses a `DCOPY` or `DCOPYS` line whose own `off` is above 65535, and a
pseudo-instruction with count 0, which are outside the ranges given there (DESIGN CHOICE, log 20). -/
def assembleLine (here : Nat) : AsmLine → Option (List Byte)
  | .lit n bytes =>
    if countInRange n && bytes.length == n then some (encode (.lit bytes)) else none
  | .skip n => if countInRange n then some (encode (.skip (fieldOf n))) else none
  | .dcopy n off =>
    if countInRange n && decide (off < 65536) then
      some (encode (.dcopy (fieldOf n) (biasOffset off)))
    else none
  | .bskip => some (encode .bskip)
  | .eof => some (encode .eof)
  | .eoa => some (encode .eoa)
  | .word w => some (leBytes w)
  | .byte b => some [b]
  | .org x => padTo here x
  | .bankpad =>
    match padTo (here + 2) ((bankOf here + 1) * Config.bankSize) with
    | some zeros => some (encode .bskip ++ zeros)
    | none => none
  | .lits n bytes =>
    if decide (1 ≤ n) && bytes.length == n then some (encodeAll (litPieces (splitCount n n) bytes))
    else none
  | .skips n =>
    if 1 ≤ n then some (encodeAll ((splitCount n n).map (fun k => .skip (fieldOf k)))) else none
  | .dcopys n off =>
    if decide (1 ≤ n) && decide (off < 65536) then
      some (encodeAll (dcopyPieces (splitCount n n) off))
    else none

/-- The bytes of a program whose first line stands at offset `here`. -/
def assemble : Nat → List AsmLine → Option (List Byte)
  | _, [] => some []
  | here, line :: lines =>
    match assembleLine here line with
    | none => none
    | some bytes =>
      match assemble (here + bytes.length) lines with
      | none => none
      | some rest => some (bytes ++ rest)

/-- The opcodes a Matcher result stands for: `DCOPY k, s`, in pieces where k > 16384, and none for
NONE and INVALID (45_matcher.md R158). A later piece whose offset passes 65535 has it modulo 2^16, as
in `dcopyPieces` (DESIGN CHOICE, log 20). -/
def opcodesOfResponse (r : MatchResponse) : List Instr :=
  match r.kind with
  | .none => []
  | .invalid => []
  | .pattern => dcopyPieces (splitCount r.len.toNat r.len.toNat) r.start.toNat
  | .substring => dcopyPieces (splitCount r.len.toNat r.len.toNat) r.start.toNat

end Sys2Proof.Machine
end

