-- ==== Sys2Proof/Safety.lean ====
section
/-! DEFINITION. What claims say about states and responses: the invariant of the machine, and the
relation a conforming Matcher meets. -/

namespace Sys2Proof.Machine

/-- The invariant of the machine: what the spec says of every reachable state. -/
structure Inv (s : State) : Prop where
  /-- both memories are in canonical form -/
  streamWf : Memory.wf s.stream
  canvasWf : Memory.wf s.canvas
  /-- only addresses that exist are listed (20_memory.md R50) -/
  streamInSpace : ∀ cell ∈ s.stream, cell.1 < Config.maxStreamLen
  canvasInSpace : ∀ cell ∈ s.canvas, cell.1 < Config.maxFrameSize
  /-- `CURSOR ≤ FSIZE_L` (10_state.md R25) -/
  cursorInFrame : s.cursor.toNat ≤ s.fsizeL.toNat
  /-- `RP` never wraps (10_state.md R26), and never lies before the start of the run -/
  rpInRange : s.rp.toNat ≤ 2 ^ 32
  startBeforeRp : s.startL.toNat ≤ s.rp.toNat
  /-- a canvas larger than the space is latched only by a start that failed (70_reset_and_hazards.md R204) -/
  oversizeIsConfigError : Config.maxFrameSize < s.fsizeL.toNat ↔ s.outErrCode = .config
  /-- an error code is held exactly in Error (10_state.md R32; 60_exceptions.md R180) -/
  errorCodeInError : s.outErrCode ≠ .none ↔ s.fsm = .error
  /-- the recorded offset is the failing opcode's, which is still `RP`, and 0 elsewhere (60_exceptions.md R184) -/
  errorOffset : s.outErrOffset = if s.fsm = .error then s.rp else 0
  /-- `OUT_CONSUMED` counts from the start at a terminator and is 0 elsewhere (41_control_opcodes.md R135) -/
  consumedCount : s.outConsumed.toNat =
    if s.fsm = .endOfFrame ∨ s.fsm = .endOfAnimation then s.rp.toNat - s.startL.toNat else 0

/-- `k` is the largest number up to `bound` such that every index below `k` satisfies `agree`. -/
def IsLongestPrefix (agree : Nat → Prop) (bound k : Nat) : Prop :=
  k ≤ bound ∧ (∀ i, i < k → agree i) ∧ (k < bound → ¬ agree k)

/-- A candidate period with its length (45_matcher.md R153), said without the search. -/
def PatternCandidate (q : MatchRequest) (p k : Nat) : Prop :=
  1 ≤ p ∧ p ≤ q.c.toNat ∧ p ≤ q.src.length ∧ p ≤ Config.periodMax ∧
  IsLongestPrefix (fun i => srcByte q i = dictByte q (q.c.toNat - p + i % p)) q.src.length k

/-- A candidate start with its length (45_matcher.md R154), said without the search. -/
def SubstringCandidate (q : MatchRequest) (s k : Nat) : Prop :=
  s < q.extent.toNat ∧
  IsLongestPrefix (fun i => srcByte q i = dictByte q (s + i))
    (min q.src.length (if s < q.c.toNat then q.c.toNat - s else q.extent.toNat - s)) k

/-- What a conforming Matcher may answer (45_matcher.md R151, R155, R156): INVALID exactly for an
invalid request; otherwise a candidate of the greatest length, PATTERN whenever some pattern has that
length and it is not 0, and NONE when every candidate has length 0. -/
def Conforms (q : MatchRequest) (r : MatchResponse) : Prop :=
  if q.c.toNat ≤ q.extent.toNat ∧ q.extent.toNat ≤ q.dict.length then
    (∀ p k, PatternCandidate q p k → k ≤ r.len.toNat) ∧
    (∀ s k, SubstringCandidate q s k → k ≤ r.len.toNat) ∧
    match r.kind with
    | .invalid => False
    | .none => r.len = 0 ∧ r.start = 0 ∧ r.period = 0
    | .pattern =>
      0 < r.len.toNat ∧ PatternCandidate q r.period.toNat r.len.toNat ∧
      r.start.toNat = q.c.toNat - r.period.toNat
    | .substring =>
      0 < r.len.toNat ∧ SubstringCandidate q r.start.toNat r.len.toNat ∧ r.period = 0 ∧
      ∀ p k, PatternCandidate q p k → k < r.len.toNat
  else r = ⟨.invalid, 0, 0, 0⟩

end Sys2Proof.Machine
end

