-- ==== Sys2Proof/Certificates/Slice0/Obligations.lean ====
section
/-! DEFINITION. The statements for the provers, one `def Obligations.<Name> : Prop` each. In every
statement `a` stands for the offset of the command word, which is `RP` while a step executes. -/

open Sys2Proof Sys2Proof.Machine

/-! ## Encoding -/

/-- Words written out from the encodings of 30_encoding.md R83 and R88 and the examples of
40_data_opcodes.md R105, R110, R116 and 41_control_opcodes.md R140. A sanity statement. -/
def Obligations.WordsOfTheSpecDecode : Prop :=
  decode [0x03#8, 0x00#8, 0xAA#8, 0xBB#8] = .ok (.lit [0xAA#8, 0xBB#8], []) ∧
  decode [0x07#8, 0x80#8] = .ok (.skip 3#14, []) ∧
  decode [0x1C#8, 0x80#8, 0x00#8, 0x20#8] = .ok (.dcopy 14#14 0x2000#16, []) ∧
  decode [0x00#8, 0x00#8] = .ok (.bskip, []) ∧
  decode [0x02#8, 0x00#8] = .ok (.eof, []) ∧
  decode [0x06#8, 0x00#8] = .ok (.eoa, []) ∧
  decode [0x04#8, 0x00#8] = .ok (.reserved 2#14, []) ∧
  decode [0x08#8, 0x00#8] = .ok (.reserved 4#14, []) ∧
  decode [0xFE#8, 0x7F#8] = .ok (.reserved 0x3FFF#14, []) ∧
  decode [0x00#8, 0x07#8] = .ok (.reserved 0x380#14, [])

/-- Every well-formed instruction comes back from its bytes, whatever follows them (30_encoding.md R83
to R85 and R88). -/
def Obligations.EncodeThenDecodeGivesBack : Prop :=
  ∀ (i : Instr) (rest : List Byte), i.wf = true → decode (encode i ++ rest) = .ok (i, rest)

/-- Every list of bytes that decodes is the encoding of the well-formed instruction it decodes to: each
word has one meaning and no bit is dropped (30_encoding.md R80 to R88). -/
def Obligations.DecodeThenEncodeGivesBack : Prop :=
  ∀ (bytes : List Byte) (i : Instr) (rest : List Byte), decode bytes = .ok (i, rest) →
    i.wf = true ∧ encode i ++ rest = bytes

/-- Every 16-bit word falls in exactly one row of the opcode map, the row of its class (30_encoding.md
R83 and R91). -/
def Obligations.EveryWordInItsOneRow : Prop :=
  ∀ w : Word, ∃ row ∈ opcodeMap, row.opClass = classify w ∧
    ∀ other ∈ opcodeMap, rowMatches other w = true ↔ other = row

/-- The length of an opcode is told from bits 0, 15 and 14..1 of its command word (30_encoding.md R82). -/
def Obligations.LengthFromCommandWord : Prop :=
  ∀ (lo hi : Byte) (more : List Byte) (i : Instr) (rest : List Byte),
    decode (lo :: hi :: more) = .ok (i, rest) →
    let w := lo.toNat + 256 * hi.toNat
    (lo :: hi :: more).length = rest.length +
      (if w.testBit 0 = true ∧ w.testBit 15 = false then 2 + w / 2 % 2 ^ 14 + 1
       else if w.testBit 0 = false ∧ w.testBit 15 = true then 4
       else 2)

/-- The count of a command word (30_encoding.md R84) and the source index of an offset word
(30_encoding.md R85). -/
def Obligations.OperandsFromTheirWords : Prop :=
  (∀ w : Word, countOf (countField w) = w.toNat / 2 % 2 ^ 14 + 1 ∧
    1 ≤ countOf (countField w) ∧ countOf (countField w) ≤ 16384) ∧
  ∀ offset : Word, srcOf offset < 65536 ∧
    (srcOf offset : Int) = ((offset.toNat : Int) - 0x2000) % 2 ^ 16 ∧
    (offset.toNat < 0x2000 → srcOf offset = offset.toNat + 0xE000)

/-- A word of the stream is little-endian (20_memory.md R53). -/
def Obligations.StreamWordsAreLittleEndian : Prop :=
  ∀ (s : State) (x : Nat),
    (readStreamWord s x).toNat = (readStream s x).toNat + 256 * (readStream s (x + 1)).toNat

/-! ## The step -/

/-- When the stream bytes at `RP` decode to an instruction, the decoder's turn is `exec` of it: with no
host move waiting, and with a waiting host, whose move is then used up (40_data_opcodes.md R100). -/
def Obligations.StepRunsTheDecodedInstruction : Prop :=
  ∀ (s : State) (bytes : List Byte) (i : Instr),
    s.fsm = .running → s.rp.toNat + bytes.length ≤ s.slenL.toNat →
    readStreamRun s s.rp.toNat bytes.length = bytes → decode bytes = .ok (i, []) →
    (s.inbox = [] → step s = exec i s) ∧
    ∀ rest, s.inbox = .wait :: rest → step s = exec i { s with inbox := rest }

/-- When the stream holds the encoding of a well-formed instruction at `RP`, the step is `exec` of that
instruction (40_data_opcodes.md R100 with 30_encoding.md R88). -/
def Obligations.StepRunsTheEncodedInstruction : Prop :=
  ∀ (s : State) (i : Instr), s.inbox = [] → s.fsm = .running → i.wf = true →
    s.rp.toNat + (encode i).length ≤ s.slenL.toNat →
    (∀ k (h : k < (encode i).length), readStream s (s.rp.toNat + k) = (encode i)[k]) →
    step s = exec i s

/-- An opcode whose command word, payload or offset word runs past the stream raises E_STREAM at its
command word, and nothing else happens (20_memory.md R57; 40_data_opcodes.md R100, R102, R112). -/
def Obligations.TruncatedOpcodeRaisesStreamError : Prop :=
  ∀ s : State, s.inbox = [] → s.fsm = .running →
    (s.slenL.toNat < s.rp.toNat + 2 ∨
      s.slenL.toNat < s.rp.toNat + opcodeLength (readStreamWord s s.rp.toNat)) →
    step s = .next { s with outErrCode := .stream, outErrOffset := s.rp, fsm := .error }

/-- In Idle and the terminal states the decoder's turn changes nothing (10_state.md R34). That there is
such a turn, with a host that has no move or waits, is the model's choice (log 3). -/
def Obligations.BlockHoldsWhenNotRunning : Prop :=
  ∀ s : State, s.fsm ≠ .running →
    (s.inbox = [] → step s = .next s) ∧
    ∀ rest, s.inbox = .wait :: rest → step s = .next { s with inbox := rest }

/-- The decoder's turn always has a next state: no fault, no refusal, no hang (while Running,
70_reset_and_hazards.md R219 and 60_exceptions.md R184). In Idle and the terminal states the spec gives
the decoder no step: that there is such a turn, which holds the state, is the model's choice (log 3). -/
def Obligations.DecoderTurnAlwaysHasNextState : Prop :=
  ∀ s : State, s.inbox = [] → ∃ t, step s = .next t ∧ t.inbox = []

/-! ## The instructions: what each does, where it completes, what it leaves unchanged -/

/-- LIT (40_data_opcodes.md R102, R103). First it completes; then its errors, in their order. -/
def Obligations.LitMeaning : Prop :=
  ∀ (s : State) (payload : List Byte), (Instr.lit payload).wf = true →
    let a := s.rp.toNat
    let c := s.cursor.toNat
    let n := payload.length
    let short := s.slenL.toNat < a + 2 + n
    let crossing := s.strictL = true ∧ a / 65536 ≠ (a + (2 + n) - 1) / 65536
    let overrun := s.fsizeL.toNat < c + n
    (¬ short → ¬ crossing → ¬ overrun →
      ∃ t, exec (.lit payload) s = .next t ∧
        (∀ i (h : i < n), readCanvas t (c + i) = payload[i]) ∧
        (∀ j, j < c ∨ c + n ≤ j → readCanvas t j = readCanvas s j) ∧
        t.cursor.toNat = c + n ∧ t.rp.toNat = a + 2 + n ∧
        t = { s with canvas := t.canvas, cursor := t.cursor, rp := t.rp }) ∧
    (short → exec (.lit payload) s =
      .next { s with outErrCode := .stream, outErrOffset := s.rp, fsm := .error }) ∧
    (¬ short → crossing → exec (.lit payload) s =
      .next { s with outErrCode := .bank, outErrOffset := s.rp, fsm := .error }) ∧
    (¬ short → ¬ crossing → overrun → exec (.lit payload) s =
      .next { s with outErrCode := .dest, outErrOffset := s.rp, fsm := .error })

/-- SKIP (40_data_opcodes.md R107, R108), its command word lying in the stream as the fetch has
checked. First it completes; then its errors, in their order. -/
def Obligations.SkipMeaning : Prop :=
  ∀ (s : State) (count : BitVec 14), s.rp.toNat + 2 ≤ s.slenL.toNat →
    let a := s.rp.toNat
    let c := s.cursor.toNat
    let n := count.toNat + 1
    let crossing := s.strictL = true ∧ a % 65536 = 0xFFFF
    let overrun := s.fsizeL.toNat < c + n
    (¬ crossing → ¬ overrun →
      ∃ t, exec (.skip count) s = .next t ∧ t.cursor.toNat = c + n ∧ t.rp.toNat = a + 2 ∧
        (∀ j, readCanvas t j = readCanvas s j) ∧
        t = { s with cursor := t.cursor, rp := t.rp }) ∧
    (crossing → exec (.skip count) s =
      .next { s with outErrCode := .bank, outErrOffset := s.rp, fsm := .error }) ∧
    (¬ crossing → overrun → exec (.skip count) s =
      .next { s with outErrCode := .dest, outErrOffset := s.rp, fsm := .error })

/-- DCOPY (40_data_opcodes.md R112, R113, R114). First it completes, byte `i` being what an earlier
transfer of the same copy wrote where it wrote there, and the old byte elsewhere; then its errors, in
their order. -/
def Obligations.DcopyMeaning : Prop :=
  ∀ (s : State) (count : BitVec 14) (offset : Word),
    let a := s.rp.toNat
    let c := s.cursor.toNat
    let n := count.toNat + 1
    let src := (offset.toNat + (65536 - 0x2000)) % 65536
    let short := s.slenL.toNat < a + 4
    let crossing := s.strictL = true ∧ a / 65536 ≠ (a + 4 - 1) / 65536
    let overrun := s.fsizeL.toNat < c + n
    let overread := s.fsizeL.toNat < src + n
    (¬ short → ¬ crossing → ¬ overrun → ¬ overread →
      ∃ t, exec (.dcopy count offset) s = .next t ∧
        (∀ i, i < n → readCanvas t (c + i) =
          if c ≤ src + i ∧ src + i < c + i then readCanvas t (src + i)
          else readCanvas s (src + i)) ∧
        (∀ j, j < c ∨ c + n ≤ j → readCanvas t j = readCanvas s j) ∧
        t.cursor.toNat = c + n ∧ t.rp.toNat = a + 4 ∧
        t = { s with canvas := t.canvas, cursor := t.cursor, rp := t.rp }) ∧
    (short → exec (.dcopy count offset) s =
      .next { s with outErrCode := .stream, outErrOffset := s.rp, fsm := .error }) ∧
    (¬ short → crossing → exec (.dcopy count offset) s =
      .next { s with outErrCode := .bank, outErrOffset := s.rp, fsm := .error }) ∧
    (¬ short → ¬ crossing → overrun → exec (.dcopy count offset) s =
      .next { s with outErrCode := .dest, outErrOffset := s.rp, fsm := .error }) ∧
    (¬ short → ¬ crossing → ¬ overrun → overread → exec (.dcopy count offset) s =
      .next { s with outErrCode := .src, outErrOffset := s.rp, fsm := .error })

/-- The data opcodes as steps (40_data_opcodes.md R100, R102, R107, R112): where no check fails, the
count comes from the command word at `RP`, the payload of LIT from the stream bytes after it, and the
source index of DCOPY from the offset word after it. -/
def Obligations.DataStepsTakeTheirOperandsFromTheStream : Prop :=
  ∀ s : State, s.inbox = [] → s.fsm = .running →
    let a := s.rp.toNat
    let c := s.cursor.toNat
    let w := readStreamWord s a
    let n := w.toNat / 2 % 2 ^ 14 + 1
    let offset := readStreamWord s (a + 2)
    let src := (offset.toNat + (65536 - 0x2000)) % 65536
    let crossing := fun len => s.strictL = true ∧ a / 65536 ≠ (a + len - 1) / 65536
    (classify w = .lit → a + 2 + n ≤ s.slenL.toNat → ¬ crossing (2 + n) →
      c + n ≤ s.fsizeL.toNat →
      ∃ t, step s = .next t ∧
        (∀ i, i < n → readCanvas t (c + i) = readStream s (a + 2 + i)) ∧
        t.cursor.toNat = c + n ∧ t.rp.toNat = a + 2 + n) ∧
    (classify w = .skip → a + 2 ≤ s.slenL.toNat → ¬ crossing 2 → c + n ≤ s.fsizeL.toNat →
      ∃ t, step s = .next t ∧ (∀ j, readCanvas t j = readCanvas s j) ∧
        t.cursor.toNat = c + n ∧ t.rp.toNat = a + 2) ∧
    (classify w = .dcopy → a + 4 ≤ s.slenL.toNat → ¬ crossing 4 → c + n ≤ s.fsizeL.toNat →
      src + n ≤ s.fsizeL.toNat →
      ∃ t, step s = .next t ∧
        (∀ i, i < n → readCanvas t (c + i) =
          if c ≤ src + i ∧ src + i < c + i then readCanvas t (src + i)
          else readCanvas s (src + i)) ∧
        t.cursor.toNat = c + n ∧ t.rp.toNat = a + 4)

/-- The overlap law (40_data_opcodes.md R118): a copy from behind the cursor repeats the `p` bytes
before the cursor. -/
def Obligations.DcopyOverlapLaw : Prop :=
  ∀ (s t : State) (count : BitVec 14) (offset : Word), s.fsm = .running →
    exec (.dcopy count offset) s = .next t → t.fsm = .running →
    let c := s.cursor.toNat
    let src := srcOf offset
    src < c →
    (∀ i, i < count.toNat + 1 →
      readCanvas t (c + i) = readCanvas s (src + i % (c - src))) ∧
    (count.toNat + 1 ≤ c - src → ∀ i, i < count.toNat + 1 →
      readCanvas t (c + i) = readCanvas s (src + i))

/-- The corner cases of a completing DCOPY (40_data_opcodes.md R115): behind without overlap and ahead
of the cursor it copies the bytes from before the step; at the cursor it changes no byte; one behind,
it fills with the byte before the cursor. -/
def Obligations.DcopyCornerCases : Prop :=
  ∀ (s t : State) (count : BitVec 14) (offset : Word), s.fsm = .running →
    exec (.dcopy count offset) s = .next t → t.fsm = .running →
    let c := s.cursor.toNat
    let n := count.toNat + 1
    let src := srcOf offset
    (src + n ≤ c ∨ c < src → ∀ i, i < n → readCanvas t (c + i) = readCanvas s (src + i)) ∧
    (src = c → ∀ j, readCanvas t j = readCanvas s j) ∧
    (src + 1 = c → ∀ i, i < n → readCanvas t (c + i) = readCanvas s (c - 1))

/-- BSKIP (41_control_opcodes.md R131), its command word lying in the stream as the fetch has checked:
`RP` goes to the first offset of the next bank and nothing else changes; E_BANK where the word itself
straddles two banks and the option is set. -/
def Obligations.BskipMeaning : Prop :=
  ∀ s : State, s.rp.toNat + 2 ≤ s.slenL.toNat →
    let a := s.rp.toNat
    let crossing := s.strictL = true ∧ a % 65536 = 0xFFFF
    (¬ crossing →
      ∃ t, exec .bskip s = .next t ∧ t.rp.toNat = (a / 65536 + 1) * 65536 ∧ a < t.rp.toNat ∧
        (∀ j, readCanvas t j = readCanvas s j) ∧ t = { s with rp := t.rp }) ∧
    (crossing → exec .bskip s =
      .next { s with outErrCode := .bank, outErrOffset := s.rp, fsm := .error })

/-- EOF (41_control_opcodes.md R134), its command word lying in the stream and not before the
start of the run. -/
def Obligations.EofMeaning : Prop :=
  (∀ rest, decode (0x02#8 :: 0x00#8 :: rest) = .ok (.eof, rest)) ∧
  ∀ s : State, s.rp.toNat + 2 ≤ s.slenL.toNat → s.startL.toNat ≤ s.rp.toNat →
    let a := s.rp.toNat
    let crossing := s.strictL = true ∧ a % 65536 = 0xFFFF
    (¬ crossing →
      ∃ t, exec .eof s = .next t ∧ t.fsm = .endOfFrame ∧ t.rp.toNat = a + 2 ∧
        s.startL.toNat + t.outConsumed.toNat = t.rp.toNat ∧
        (∀ j, readCanvas t j = readCanvas s j) ∧
        t = { s with rp := t.rp, outConsumed := t.outConsumed, fsm := t.fsm }) ∧
    (crossing → exec .eof s =
      .next { s with outErrCode := .bank, outErrOffset := s.rp, fsm := .error })

/-- EOA (41_control_opcodes.md R137), its command word lying in the stream and not before the
start of the run. -/
def Obligations.EoaMeaning : Prop :=
  (∀ rest, decode (0x06#8 :: 0x00#8 :: rest) = .ok (.eoa, rest)) ∧
  ∀ s : State, s.rp.toNat + 2 ≤ s.slenL.toNat → s.startL.toNat ≤ s.rp.toNat →
    let a := s.rp.toNat
    let crossing := s.strictL = true ∧ a % 65536 = 0xFFFF
    (¬ crossing →
      ∃ t, exec .eoa s = .next t ∧ t.fsm = .endOfAnimation ∧ t.rp.toNat = a + 2 ∧
        s.startL.toNat + t.outConsumed.toNat = t.rp.toNat ∧
        (∀ j, readCanvas t j = readCanvas s j) ∧
        t = { s with rp := t.rp, outConsumed := t.outConsumed, fsm := t.fsm }) ∧
    (crossing → exec .eoa s =
      .next { s with outErrCode := .bank, outErrOffset := s.rp, fsm := .error })

/-- Bytes consumed (41_control_opcodes.md R135): from `START_L`, they reach the offset just past the
terminator word, where the next stream begins. -/
def Obligations.BytesConsumedEndPastTheTerminator : Prop :=
  ∀ (i : Instr) (s t : State), i = .eof ∨ i = .eoa →
    s.rp.toNat + 2 ≤ s.slenL.toNat → s.startL.toNat ≤ s.rp.toNat →
    exec i s = .next t → t.fsm ≠ .error →
    s.startL.toNat + t.outConsumed.toNat = s.rp.toNat + 2 ∧ t.rp.toNat = s.rp.toNat + 2

/-- RESERVED (41_control_opcodes.md R139): which words decode to it, and that executing one raises
E_RESERVED, before any E_BANK, and does nothing else. -/
def Obligations.ReservedMeaning : Prop :=
  (∀ (w : Word) (rest : List Byte), w.getLsbD 15 = false → w.getLsbD 0 = false →
    w.toNat / 2 ≠ 0 → w.toNat / 2 ≠ 1 → w.toNat / 2 ≠ 3 →
    ∃ count : BitVec 14, count.toNat = w.toNat / 2 ∧
      decode (leBytes w ++ rest) = .ok (.reserved count, rest)) ∧
  ∀ (s : State) (count : BitVec 14), (Instr.reserved count).wf = true →
    exec (.reserved count) s =
      .next { s with outErrCode := .reserved, outErrOffset := s.rp, fsm := .error }

/-! ## Errors -/

/-- One step reports the first of the six conditions of 60_exceptions.md R183, and when none holds it
completes. -/
def Obligations.ErrorsInPriorityOrder : Prop :=
  ∀ s : State, s.inbox = [] → s.fsm = .running →
    let a := s.rp.toNat
    let w := readStreamWord s a
    let len := opcodeLength w
    let n := w.toNat / 2 % 2 ^ 14 + 1
    let src := srcOf (readStreamWord s (a + 2))
    let raises := fun code : ErrorCode =>
      step s = .next { s with outErrCode := code, outErrOffset := s.rp, fsm := .error }
    let noWord := s.slenL.toNat < a + 2
    let isReserved := classify w = .reserved
    let short := s.slenL.toNat < a + len
    let crossing := s.strictL = true ∧ a / 65536 ≠ (a + len - 1) / 65536
    let overrun := (classify w = .lit ∨ classify w = .skip ∨ classify w = .dcopy) ∧
      s.fsizeL.toNat < s.cursor.toNat + n
    let overread := classify w = .dcopy ∧ s.fsizeL.toNat < src + n
    (noWord → raises .stream) ∧
    (¬ noWord → isReserved → raises .reserved) ∧
    (¬ noWord → ¬ isReserved → short → raises .stream) ∧
    (¬ noWord → ¬ isReserved → ¬ short → crossing → raises .bank) ∧
    (¬ noWord → ¬ isReserved → ¬ short → ¬ crossing → overrun → raises .dest) ∧
    (¬ noWord → ¬ isReserved → ¬ short → ¬ crossing → ¬ overrun → overread → raises .src) ∧
    (¬ noWord → ¬ isReserved → ¬ short → ¬ crossing → ¬ overrun → ¬ overread →
      ∃ t, step s = .next t ∧ t.fsm ≠ .error)

/-- Entering Error records the code and the offset of the failing opcode and changes nothing else: not
`CURSOR`, `RP`, `OUT_CONSUMED` or a byte of the canvas (60_exceptions.md R184). -/
def Obligations.EnteringErrorChangesNothingElse : Prop :=
  ∀ s t : State, s.inbox = [] → s.fsm = .running → step s = .next t → t.fsm = .error →
    ∃ code : ErrorCode, code ≠ .none ∧ code ≠ .config ∧
      t = { s with outErrCode := code, outErrOffset := s.rp, fsm := .error }

/-- E_BANK exactly when the option is latched, the opcode's bytes are in the stream and they lie in two
banks (60_exceptions.md R182). -/
def Obligations.BankErrorExactlyWhenStrictAndCrossing : Prop :=
  ∀ (s : State) (i : Instr), i.wf = true → s.fsm = .running →
    s.rp.toNat + sizeOfInstr i ≤ s.slenL.toNat → classOf i ≠ .reserved →
    (exec i s = .next { s with outErrCode := .bank, outErrOffset := s.rp, fsm := .error } ↔
      s.strictL = true ∧ s.rp.toNat >>> 16 ≠ (s.rp.toNat + sizeOfInstr i - 1) >>> 16)

/-! ## Whole-machine rules -/

/-- No opcode writes the stream, a latched copy, a configuration input or the host's moves
(20_memory.md R51; 10_state.md R28, R31); `STATE` and the three error and count outputs change only
with the end of the run. -/
def Obligations.OpcodesLeaveStreamAndConfiguration : Prop :=
  ∀ (i : Instr) (s t : State), exec i s = .next t →
    t.stream = s.stream ∧ t.startL = s.startL ∧ t.fsizeL = s.fsizeL ∧ t.slenL = s.slenL ∧
    t.strictL = s.strictL ∧ t.cfgFrameSize = s.cfgFrameSize ∧ t.cfgStreamLen = s.cfgStreamLen ∧
    t.cfgStart = s.cfgStart ∧ t.cfgStrictBanks = s.cfgStrictBanks ∧ t.inbox = s.inbox ∧
    t.draws = s.draws ∧
    (t.fsm = .running → t.outConsumed = s.outConsumed ∧ t.outErrCode = s.outErrCode ∧
      t.outErrOffset = s.outErrOffset)

/-- The write footprint (40_data_opcodes.md R117): an opcode writes only `[CURSOR, CURSOR + n)`, `n`
being 0 for SKIP, BSKIP, EOF and EOA; one that raises an error writes nothing. -/
def Obligations.WritesOnlyItsFootprint : Prop :=
  ∀ (i : Instr) (s t : State), s.fsm = .running → exec i s = .next t →
    let n := match i with
      | .lit payload => payload.length
      | .dcopy count _ => count.toNat + 1
      | .skip _ => 0
      | .bskip => 0
      | .eof => 0
      | .eoa => 0
      | .reserved _ => 0
    (∀ j, j < s.cursor.toNat ∨ s.cursor.toNat + n ≤ j → readCanvas t j = readCanvas s j) ∧
    (t.fsm = .error → ∀ j, readCanvas t j = readCanvas s j)

/-- Within one run the cursor only grows, and a canvas byte behind it or not yet reached is the one
from before: so each index is written at most once (40_data_opcodes.md R117). -/
def Obligations.EachCanvasIndexWrittenAtMostOnce : Prop :=
  ∀ (k : Nat) (s t : State), s.inbox = [] → Host.Core.run Sys2Proof.core k s = .next t →
    s.cursor.toNat ≤ t.cursor.toNat ∧
    ∀ j, j < s.cursor.toNat ∨ t.cursor.toNat ≤ j → readCanvas t j = readCanvas s j

/-- Only LIT, SKIP and DCOPY write `CURSOR`, each adding its count; an opcode that raises an error
leaves it unchanged (10_state.md R25). -/
def Obligations.OnlyDataOpcodesMoveTheCursor : Prop :=
  ∀ (i : Instr) (s t : State), s.fsm = .running → exec i s = .next t →
    (t.fsm = .error → t.cursor = s.cursor) ∧
    (t.fsm ≠ .error →
      match i with
      | .lit payload => t.cursor.toNat = s.cursor.toNat + payload.length
      | .skip count => t.cursor.toNat = s.cursor.toNat + (count.toNat + 1)
      | .dcopy count _ => t.cursor.toNat = s.cursor.toNat + (count.toNat + 1)
      | .bskip => t.cursor = s.cursor
      | .eof => t.cursor = s.cursor
      | .eoa => t.cursor = s.cursor
      | .reserved _ => False)

/-- How each opcode moves `RP` (10_state.md R27): strictly upward where it completes, not at all where
it raises an error. -/
def Obligations.HowEachOpcodeMovesRp : Prop :=
  ∀ (i : Instr) (s t : State), s.fsm = .running → s.rp.toNat + 2 ≤ s.slenL.toNat →
    exec i s = .next t →
    let a := s.rp.toNat
    (t.fsm = .error → t.rp = s.rp) ∧
    (t.fsm ≠ .error → a < t.rp.toNat ∧
      match i with
      | .lit payload => t.rp.toNat = a + 2 + payload.length
      | .skip _ => t.rp.toNat = a + 2
      | .dcopy _ _ => t.rp.toNat = a + 4
      | .bskip => t.rp.toNat = a / 65536 * 65536 + 0x10000
      | .eof => t.rp.toNat = a + 2
      | .eoa => t.rp.toNat = a + 2
      | .reserved _ => False)

/-- The transitions of `STATE`, with their causes, are exactly those of 10_state.md R23. -/
def Obligations.StateTransitionsAreThoseOfTheTable : Prop :=
  ∀ s t : State, step s = .next t →
    let decoderMoved :=
      (s.fsm ≠ .running ∧ t.fsm = s.fsm) ∨
      (s.fsm = .running ∧
        ((t.fsm = .running ∧ ∃ i, fetchInstr s = some i ∧
            (classOf i = .lit ∨ classOf i = .skip ∨ classOf i = .dcopy ∨ classOf i = .bskip)) ∨
          (t.fsm = .endOfFrame ∧ fetchInstr s = some .eof) ∨
          (t.fsm = .endOfAnimation ∧ fetchInstr s = some .eoa) ∨
          (t.fsm = .error ∧ t.outErrCode ≠ .none ∧ t.outErrCode ≠ .config)))
    match s.inbox with
    | [] => decoderMoved
    | .wait :: _ => decoderMoved
    | .start :: _ =>
      if s.fsm = .running then t.fsm = .running
      else if 65536 < s.cfgFrameSize.toNat then t.fsm = .error else t.fsm = .running
    | .reset :: _ => t.fsm = .idle
    | .resetMidOpcode :: _ => t.fsm = .idle
    | .writeFrameSize _ :: _ => t.fsm = s.fsm
    | .writeStreamLen _ :: _ => t.fsm = s.fsm
    | .writeStart _ :: _ => t.fsm = s.fsm
    | .writeStrictBanks _ :: _ => t.fsm = s.fsm
    | .loadStream _ _ :: _ => t.fsm = s.fsm
    | .loadCanvas _ _ :: _ => t.fsm = s.fsm
    | .readOutputs :: _ => t.fsm = s.fsm
    | .readCanvas _ :: _ => t.fsm = s.fsm
    | .readStream _ :: _ => t.fsm = s.fsm

/-- The invariant `Inv` of Safety.lean holds after every step from a state where it holds, the host's
moves included: canonical memories within their spaces, `CURSOR ≤ FSIZE_L`, `RP` without wrap and not
before the start, and the outputs as the state of the run says (10_state.md R25, R26, R32). -/
def Obligations.EveryStepKeepsTheInvariant : Prop :=
  ∀ s t : State, Inv s → step s = .next t → Inv t

/-- `Inv` holds after reset. -/
def Obligations.ResetMeetsTheInvariant : Prop := Inv State.reset

/-- Every run terminates, within max(1, SLEN_L − RP) steps from any Running state
(70_reset_and_hazards.md R219, where `RP = START_L`). -/
def Obligations.EveryRunTerminates : Prop :=
  ∀ s : State, s.inbox = [] → s.fsm = .running →
    ∃ k t, k ≤ max 1 (s.slenL.toNat - s.rp.toNat) ∧
      Host.Core.run Sys2Proof.core k s = .next t ∧ isTerminal t.fsm = true

/-- One decode is a start followed by steps to the first state that is not Running, and that state is
terminal (70_reset_and_hazards.md R206, R220). -/
def Obligations.OneDecodeIsStartThenSteps : Prop :=
  ∀ s : State, s.inbox = [] → s.fsm ≠ .running →
    ∃ k t, decodeFrame s = .next t ∧ isTerminal t.fsm = true ∧
      Host.Core.run Sys2Proof.core k (startCommand s) = .next t ∧
      ∀ j u, j < k → Host.Core.run Sys2Proof.core j (startCommand s) = .next u → u.fsm = .running

/-- The configuration is latched: a run does not depend on the configuration inputs after its start,
so writes to them change the fields and not the run (10_state.md R28, R31). -/
def Obligations.RunIgnoresConfigurationInputs : Prop :=
  ∀ (k : Nat) (s t : State) (size : BitVec 17) (len start : BitVec 32) (strict : Bool),
    s.inbox = [] → Host.Core.run Sys2Proof.core k s = .next t →
    Host.Core.run Sys2Proof.core k
        { s with cfgFrameSize := size, cfgStreamLen := len, cfgStart := start,
                 cfgStrictBanks := strict } =
      .next { t with cfgFrameSize := size, cfgStreamLen := len, cfgStart := start,
                     cfgStrictBanks := strict }

/-- The decoder reads the stream only below `SLEN_L` and the canvas only below `FSIZE_L`: memories that
agree there give the same step (20_memory.md R57, R58). -/
def Obligations.DecoderReadsOnlyWithinBounds : Prop :=
  ∀ (s t : State) (stream canvas : Memory), s.inbox = [] →
    (∀ a, a < s.slenL.toNat → streamByte stream a = readStream s a) →
    (∀ j, j < s.fsizeL.toNat → canvasByte canvas j = readCanvas s j) →
    step s = .next t →
    ∃ canvas', step { s with stream := stream, canvas := canvas } =
        .next { t with stream := stream, canvas := canvas' } ∧
      ∀ j, j < s.fsizeL.toNat → canvasByte canvas' j = readCanvas t j

/-- Zero padding resumes decoding at the next bank (20_memory.md R61): a word of two zero bytes that
does not straddle a bank boundary moves `RP` to the first offset of the next bank, whatever the option;
one at the last offset of a bank whose next byte is not zero is no BSKIP. -/
def Obligations.ZeroPaddingResumesAtNextBank : Prop :=
  ∀ s : State, s.inbox = [] → s.fsm = .running → s.rp.toNat + 2 ≤ s.slenL.toNat →
    readStream s s.rp.toNat = 0#8 →
    (s.rp.toNat % 65536 ≤ 0xFFFE → readStream s (s.rp.toNat + 1) = 0#8 →
      ∃ t, step s = .next t ∧ t.fsm = .running ∧
        t.rp.toNat = (s.rp.toNat / 65536 + 1) * 65536) ∧
    (s.rp.toNat % 65536 = 0xFFFF →
      (readStream s (s.rp.toNat + 1) = 0#8 ↔ classify (readStreamWord s s.rp.toNat) = .bskip))

/-! ## The host's moves -/

/-- The start command (70_reset_and_hazards.md R203, R204, R205): ignored while Running; E_CONFIG for a
canvas above 65536 bytes; otherwise Running from the latched configuration. -/
def Obligations.StartCommandMeaning : Prop :=
  ∀ (s : State) (rest : List HostMove), s.inbox = .start :: rest →
    let latched : State :=
      { s with
        inbox := rest, startL := s.cfgStart, fsizeL := s.cfgFrameSize, slenL := s.cfgStreamLen
        strictL := s.cfgStrictBanks, outConsumed := 0, cursor := 0, rp := s.cfgStart.setWidth 33 }
    (s.fsm = .running → step s = .next { s with inbox := rest }) ∧
    (s.fsm ≠ .running → 65536 < s.cfgFrameSize.toNat → step s =
      .next { latched with
        outErrCode := .config, outErrOffset := s.cfgStart.setWidth 33, fsm := .error }) ∧
    (s.fsm ≠ .running → s.cfgFrameSize.toNat ≤ 65536 → step s =
      .next { latched with outErrCode := .none, outErrOffset := 0, fsm := .running })

/-- Reset, whatever the block is doing, sets every register to its reset value and leaves the two
memories as they are (10_state.md R33). -/
def Obligations.ResetSetsEveryRegister : Prop :=
  ∀ (s : State) (rest : List HostMove), s.inbox = .reset :: rest →
    ∃ t, step s = .next t ∧ t.fsm = .idle ∧ t.cursor = 0 ∧ t.rp = 0 ∧ t.startL = 0 ∧ t.fsizeL = 0 ∧
      t.slenL = 0 ∧ t.strictL = false ∧ t.outConsumed = 0 ∧ t.outErrCode = .none ∧
      t.outErrOffset = 0 ∧ t.cfgFrameSize = 0 ∧ t.cfgStreamLen = 0 ∧ t.cfgStart = 0 ∧
      t.cfgStrictBanks = false ∧ t.stream = s.stream ∧ t.canvas = s.canvas

/-- A reset inside an opcode (70_reset_and_hazards.md R200): the registers reset, the stream is kept,
and only the bytes `[c, c + n)` of an opcode in progress that would have completed may differ. What
they hold is free (log 2), and the statement says nothing of it. -/
def Obligations.ResetInsideAnOpcodeTouchesOnlyItsBytes : Prop :=
  ∀ (s : State) (rest : List HostMove), s.inbox = .resetMidOpcode :: rest →
    ∃ t, step s = .next t ∧ t.stream = s.stream ∧
      t = { State.reset with
            stream := s.stream, canvas := t.canvas, inbox := rest, draws := t.draws } ∧
      (s.fsm ≠ .running → t.canvas = s.canvas) ∧
      (fetchInstr s = none → t.canvas = s.canvas) ∧
      ∀ i, fetchInstr s = some i →
        (∀ j, j < s.cursor.toNat ∨ s.cursor.toNat + writeCount i ≤ j →
          readCanvas t j = readCanvas s j) ∧
        ((∃ code, exec i s =
            .next { s with outErrCode := code, outErrOffset := s.rp, fsm := .error }) →
          t.canvas = s.canvas)

/-- A configuration field holds what was written, in every state of the block, and a write changes
nothing else (10_state.md R31). That the field changes while Running too is the model's reading (log 16,
DEDUCED): it follows R31 and 70_reset_and_hazards.md R215 over the table of 10_state.md R37, which lists
configuring under not Running. -/
def Obligations.ConfigurationWritesHold : Prop :=
  ∀ (s : State) (rest : List HostMove),
    (∀ v, s.inbox = .writeFrameSize v :: rest →
      step s = .next { s with inbox := rest, cfgFrameSize := v }) ∧
    (∀ v, s.inbox = .writeStreamLen v :: rest →
      step s = .next { s with inbox := rest, cfgStreamLen := v }) ∧
    (∀ v, s.inbox = .writeStart v :: rest →
      step s = .next { s with inbox := rest, cfgStart := v }) ∧
    (∀ v, s.inbox = .writeStrictBanks v :: rest →
      step s = .next { s with inbox := rest, cfgStrictBanks := v })

/-- The host loads a byte of the stream or the canvas while the block is not Running: it reads back,
every other byte is kept, and nothing else changes (10_state.md R37; 20_memory.md R62, R63). -/
def Obligations.HostLoadsReadBack : Prop :=
  ∀ (s : State) (rest : List HostMove) (a : Nat) (v : Byte), s.fsm ≠ .running →
    (s.inbox = .loadStream a v :: rest → a < 2 ^ 32 - 1 →
      ∃ t, step s = .next t ∧ readStream t a = v ∧
        (∀ b, b ≠ a → readStream t b = readStream s b) ∧
        t = { s with inbox := rest, stream := t.stream }) ∧
    (s.inbox = .loadCanvas a v :: rest → a < 65536 →
      ∃ t, step s = .next t ∧ readCanvas t a = v ∧
        (∀ b, b ≠ a → readCanvas t b = readCanvas s b) ∧
        t = { s with inbox := rest, canvas := t.canvas })

/-- While the block is Running the host has no access to the memories: the model refuses such a move by
name (70_reset_and_hazards.md R215). The refusal is the model's way to give such a run no meaning
(log 4). -/
def Obligations.HostMemoryAccessWhileRunningIsRefused : Prop :=
  ∀ (s : State) (rest : List HostMove) (a : Nat) (v : Byte), s.fsm = .running →
    (s.inbox = .loadStream a v :: rest ∨ s.inbox = .loadCanvas a v :: rest ∨
      s.inbox = .readCanvas a :: rest ∨ s.inbox = .readStream a :: rest) →
    step s = .refused .hostTouchesMemoryWhileRunning

/-- The status outputs (10_state.md R32): the values of `STATE`, `ST_DONE` exactly in the three terminal
states, the mirrors, and a read that changes nothing. -/
def Obligations.StatusOutputsMirrorTheRegisters : Prop :=
  ∀ s : State,
    let o := readOutputs s
    o.stState.toNat = (match s.fsm with
      | .idle => 0 | .running => 1 | .endOfFrame => 2 | .endOfAnimation => 3 | .error => 4) ∧
    o.outErrCode.toNat = (match s.outErrCode with
      | .none => 0 | .reserved => 1 | .stream => 2 | .dest => 3 | .src => 4 | .bank => 5
      | .config => 6) ∧
    (o.stDone = true ↔ s.fsm = .endOfFrame ∨ s.fsm = .endOfAnimation ∨ s.fsm = .error) ∧
    o.outConsumed = s.outConsumed ∧ o.outErrOffset = s.outErrOffset ∧
    o.outCursor = s.cursor ∧ o.outRp = s.rp ∧
    ∀ rest, s.inbox = .readOutputs :: rest → step s = .next { s with inbox := rest }

/-! ## The Matcher -/

/-- The soundness law (45_matcher.md R159): the DCOPY that a Matcher result stands for writes exactly
the source bytes, for the reference Matcher and for every conforming draw, and whichever canvas agrees
with the dictionary where the request compared. -/
def Obligations.MatcherResultsDecodeToTheSource : Prop :=
  ∀ (choice : MatcherChoice) (draw : Nat) (q : MatchRequest) (s t : State) (count : BitVec 14)
    (offset : Word),
    q.wf = true → requestValid q = true →
    let r := findMatch choice draw q
    let c := q.c.toNat
    let k := r.len.toNat
    let start := r.start.toNat
    0 < k → count.toNat + 1 = k → srcOf offset = start →
    s.cursor = q.c → s.fsm = .running →
    (r.kind = .pattern → ∀ j, c - r.period.toNat ≤ j → j < c → readCanvas s j = dictByte q j) →
    (r.kind = .substring → ∀ j, start ≤ j → j < start + k → readCanvas s j = dictByte q j) →
    exec (.dcopy count offset) s = .next t → t.fsm = .running →
    ∀ i, i < k → readCanvas t (c + i) = srcByte q i

/-- The reference Matcher conforms (45_matcher.md R155, R156): its answer is a candidate of the greatest
length, PATTERN on a tie. -/
def Obligations.ReferenceMatcherConforms : Prop :=
  ∀ q : MatchRequest, q.wf = true → Conforms q (findBestMatch q)

/-- A Matcher that draws among the maximal candidates conforms, whatever it draws (45_matcher.md R156). -/
def Obligations.EveryDrawConforms : Prop :=
  ∀ (draw : Nat) (q : MatchRequest), q.wf = true → Conforms q (findAnyBestMatch draw q)

/-- The reference Matcher reports the smallest period and the lowest start among the candidates of its
length (45_matcher.md R153, R154, R156). -/
def Obligations.ReferenceMatcherTakesTheFirst : Prop :=
  ∀ q : MatchRequest, q.wf = true → requestValid q = true →
    let r := findBestMatch q
    (r.kind = .pattern →
      ∀ p, p < r.period.toNat → ¬ PatternCandidate q p r.len.toNat) ∧
    (r.kind = .substring →
      ∀ s, s < r.start.toNat → ¬ SubstringCandidate q s r.len.toNat)

/-- `PatLen` and `SubLen` are the longest agreeing prefixes of 45_matcher.md R153 and R154. -/
def Obligations.MatchLengthsAreLongestPrefixes : Prop :=
  ∀ q : MatchRequest,
    (∀ p, IsLongestPrefix (fun i => srcByte q i = dictByte q (q.c.toNat - p + i % p))
      q.src.length (patLen q p)) ∧
    ∀ s, IsLongestPrefix (fun i => srcByte q i = dictByte q (s + i))
      (min q.src.length (if s < q.c.toNat then q.c.toNat - s else q.extent.toNat - s)) (subLen q s)

/-- An invalid request is answered INVALID, whatever its memories hold (45_matcher.md R151), and a
request that reset cancels gets no response (45_matcher.md R150). -/
def Obligations.InvalidAndCancelledRequests : Prop :=
  ∀ (choice : MatcherChoice) (draw : Nat) (q : MatchRequest),
    (q.extent.toNat < q.c.toNat ∨ q.dict.length < q.extent.toNat →
      matcherRespond choice draw false q = some ⟨.invalid, 0, 0, 0⟩) ∧
    matcherRespond choice draw true q = none

/-- A valid request reads the dictionary only below `E` (45_matcher.md R151): what lies at or past `E`
does not change the response. -/
def Obligations.MatcherReadsOnlyTheVisibleDictionary : Prop :=
  ∀ (choice : MatcherChoice) (draw : Nat) (q : MatchRequest) (dict : List Byte),
    requestValid q = true → q.extent.toNat ≤ dict.length →
    (∀ j, j < q.extent.toNat → dict.getD j 0 = dictByte q j) →
    findMatch choice draw { q with dict := dict } = findMatch choice draw q

/-- The corner cases of 45_matcher.md R157: an empty source gives NONE, a cursor at 0 no PATTERN, an
empty extent no SUBSTRING, and a period never exceeds the source length. -/
def Obligations.MatcherCornerCases : Prop :=
  ∀ (choice : MatcherChoice) (draw : Nat) (q : MatchRequest), q.wf = true → requestValid q = true →
    let r := findMatch choice draw q
    (q.src = [] → r = ⟨.none, 0, 0, 0⟩) ∧
    (q.c = 0 → r.kind ≠ .pattern) ∧
    (q.extent = 0 → r.kind ≠ .substring) ∧
    (r.kind = .pattern → r.period.toNat ≤ q.src.length) ∧
    r.len.toNat ≤ q.src.length

/-- The worked examples of 45_matcher.md R160. The dictionary of the third is known up to its visible
extent only, so the statement holds for every continuation of it. -/
def Obligations.MatcherWorkedExamples : Prop :=
  findBestMatch ⟨[9, 9, 9], [0, 0, 0, 0, 9, 0, 0, 0], 5, 8⟩ = ⟨.pattern, 3, 4, 1⟩ ∧
  findBestMatch ⟨[9, 9, 9, 9], [0, 0, 0, 0, 0, 0, 0, 0], 4, 8⟩ = ⟨.none, 0, 0, 0⟩ ∧
  ∀ more : List Byte,
    findBestMatch ⟨[1, 2, 3, 1, 2, 3, 1], 1 :: 2 :: 3 :: more, 3, 3⟩ = ⟨.pattern, 7, 0, 3⟩

/-! ## The producer's side -/

/-- What an assembler line of 30_encoding.md R89 encodes decodes to the opcode it names, with its count
and its unbiased dictionary offset (30_encoding.md R88). -/
def Obligations.AssembledLinesDecode : Prop :=
  ∀ (here n off : Nat) (bytes rest : List Byte), 1 ≤ n → n ≤ 16384 → off < 65536 →
    (bytes.length = n → ∃ out, assembleLine here (.lit n bytes) = some out ∧
      decode (out ++ rest) = .ok (.lit bytes, rest)) ∧
    (∃ out count, assembleLine here (.skip n) = some out ∧
      decode (out ++ rest) = .ok (.skip count, rest) ∧ countOf count = n) ∧
    (∃ out count offset, assembleLine here (.dcopy n off) = some out ∧
      decode (out ++ rest) = .ok (.dcopy count offset, rest) ∧ countOf count = n ∧
      srcOf offset = off)

/-- `DCOPYS` (30_encoding.md R90): its pieces make the same byte transfers, in the same order, as one
copy of `n` bytes would. -/
def Obligations.DcopysMakeTheTransfersOfOneCopy : Prop :=
  ∀ (n off dst : Nat) (m : Memory), off + n ≤ 65536 →
    let piece := fun (acc : Memory × Nat) (i : Instr) =>
      match i with
      | .dcopy count offset =>
        (copyForward (countOf count) acc.1 (srcOf offset) acc.2, acc.2 + countOf count)
      | _ => acc
    (dcopyPieces (splitCount n n) off).foldl piece (m, dst) = (copyForward n m off dst, dst + n) ∧
    ∀ i ∈ dcopyPieces (splitCount n n) off, classOf i = .dcopy ∧ i.wf = true

/-- The file header (70_reset_and_hazards.md R210) and the frame size the host takes from it
(70_reset_and_hazards.md R209). -/
def Obligations.HeaderFieldsAtTheirOffsets : Prop :=
  ∀ (h : Header) (rest : List Byte),
    h.fileLength < 2 ^ 32 → h.version < 2 ^ 16 → h.widthBytes < 2 ^ 16 → h.height < 2 ^ 16 →
    h.frameSize < 2 ^ 16 → h.frameCount < 2 ^ 32 → 20 + rest.length = h.fileLength →
    parseHeader (magicBytes ++ bytesOfNat 4 h.fileLength ++ bytesOfNat 2 h.version ++
      bytesOfNat 2 h.widthBytes ++ bytesOfNat 2 h.height ++ bytesOfNat 2 h.frameSize ++
      bytesOfNat 4 h.frameCount ++ rest) = some h ∧
    (h.frameSize = 0 → frameSizeOf h = 65536) ∧ (h.frameSize ≠ 0 → frameSizeOf h = h.frameSize)
end

