-- ==== Sys2Proof/Laws/Encoding.lean ====
section
/-! SUPPORT. What the decoder and the encoder do, one lemma per function: bits of a command word, its
class, its length, and the shape of decoding. -/

namespace Sys2Proof

/-! ### Bytes and words -/

theorem leWord_leBytes (w : Word) : leWord (w.extractLsb' 0 8) (w.extractLsb' 8 8) = w := by
  apply BitVec.eq_of_getLsbD_eq
  intro i hi
  simp only [leWord, BitVec.getLsbD_append, BitVec.getLsbD_extractLsb']
  split
  · simp [*]
  · simp [show i - 8 < 8 by omega, show 8 + (i - 8) = i by omega]

theorem leBytes_leWord (lo hi : Byte) : leBytes (leWord lo hi) = [lo, hi] := by
  simp only [leBytes, leWord, List.cons.injEq, and_true]
  constructor <;> apply BitVec.eq_of_getLsbD_eq <;> intro i h <;>
    rw [BitVec.getLsbD_extractLsb', BitVec.getLsbD_append]
  · simp [h]
  · simp [h]

/-! ### The fields of a word and the word of its fields -/

/-- A word is its three fields put together (30_encoding.md R81). -/
theorem word_of_fields (w : Word) :
    w = (if kindBit w then 0x8000#16 else 0#16) ||| ((countField w).setWidth 16 <<< 1) |||
      (if tagBit w then 0x0001#16 else 0#16) := by
  apply BitVec.eq_of_getLsbD_eq
  intro i hi
  cases hk : kindBit w <;> cases ht : tagBit w <;>
    simp only [kindBit, tagBit, BitVec.getLsbD_eq_getElem (show 15 < 16 by omega),
      BitVec.getLsbD_eq_getElem (show 0 < 16 by omega)] at hk ht <;>
    interval_cases i <;> simp [countField, hk, ht]

/-- The word with the given fields. -/
theorem fields_of_word (k t : Bool) (c : BitVec 14) :
    let w := (if k then 0x8000#16 else 0#16) ||| (c.setWidth 16 <<< 1) |||
      (if t then 0x0001#16 else 0#16)
    kindBit w = k ∧ tagBit w = t ∧ countField w = c := by
  refine ⟨?_, ?_, ?_⟩
  · cases k <;> cases t <;> simp [kindBit]
  · cases k <;> cases t <;> simp [tagBit]
  · apply BitVec.eq_of_getLsbD_eq
    intro i hi
    cases k <;> cases t <;> interval_cases i <;> simp [countField]

/-! ### The fields as numbers -/

theorem countField_toNat (w : Word) : (countField w).toNat = w.toNat / 2 % 2 ^ 14 := by
  simp [countField, BitVec.extractLsb'_toNat, Nat.shiftRight_eq_div_pow]

theorem leWord_toNat (lo hi : Byte) : (leWord lo hi).toNat = lo.toNat + 256 * hi.toNat := by
  rw [leWord, BitVec.toNat_append, Nat.shiftLeft_eq, Nat.or_comm,
    Nat.mul_comm, show (2 : Nat) ^ 8 * hi.toNat = hi.toNat * 2 ^ 8 from Nat.mul_comm ..,
    ← Nat.shiftLeft_eq, Nat.or_comm, ← Nat.shiftLeft_add_eq_or_of_lt lo.isLt]
  simp [Nat.shiftLeft_eq]; omega

/-! ### The fields of each command word (30_encoding.md R88) -/

theorem commandWord_lit (payload : List Byte) (h : (Instr.lit payload).wf = true) :
    kindBit (commandWord (.lit payload)) = false ∧ tagBit (commandWord (.lit payload)) = true ∧
      (countField (commandWord (.lit payload))).toNat = payload.length - 1 := by
  have hl : 1 ≤ payload.length ∧ payload.length ≤ 16384 := by
    simp only [Instr.wf, Instr.payloadFits, Config.maxLen, Bool.and_eq_true, decide_eq_true_eq] at h
    exact ⟨h.1, of_decide_eq_true h.2⟩
  have hw : commandWord (.lit payload) =
      (if false then 0x8000#16 else 0#16) |||
        ((BitVec.ofNat 14 (payload.length - 1)).setWidth 16 <<< 1) |||
        (if true then 0x0001#16 else 0#16) := by
    have : BitVec.ofNat 16 (payload.length - 1) =
        (BitVec.ofNat 14 (payload.length - 1)).setWidth 16 := by
      apply BitVec.eq_of_toNat_eq; simp; omega
    simp [commandWord, this]
  rw [hw]
  obtain ⟨h1, h2, h3⟩ := fields_of_word false true (BitVec.ofNat 14 (payload.length - 1))
  refine ⟨h1, h2, ?_⟩
  rw [h3, BitVec.toNat_ofNat]; omega

theorem commandWord_skip (count : BitVec 14) :
    kindBit (commandWord (.skip count)) = true ∧ tagBit (commandWord (.skip count)) = true ∧
      countField (commandWord (.skip count)) = count := by
  simpa [commandWord] using fields_of_word true true count

theorem commandWord_dcopy (count : BitVec 14) (offset : Word) :
    kindBit (commandWord (.dcopy count offset)) = true ∧
      tagBit (commandWord (.dcopy count offset)) = false ∧
      countField (commandWord (.dcopy count offset)) = count := by
  simpa [commandWord] using fields_of_word true false count

theorem commandWord_reserved (count : BitVec 14) :
    kindBit (commandWord (.reserved count)) = false ∧
      tagBit (commandWord (.reserved count)) = false ∧
      countField (commandWord (.reserved count)) = count := by
  simpa [commandWord] using fields_of_word false false count

/-! ### Classification (30_encoding.md R83) -/

theorem classify_lit {w : Word} : classify w = .lit ↔ tagBit w = true ∧ kindBit w = false := by
  unfold classify; cases tagBit w <;> cases kindBit w <;> simp; split_ifs <;> simp

theorem classify_skip {w : Word} : classify w = .skip ↔ tagBit w = true ∧ kindBit w = true := by
  unfold classify; cases tagBit w <;> cases kindBit w <;> simp; split_ifs <;> simp

theorem classify_dcopy {w : Word} : classify w = .dcopy ↔ tagBit w = false ∧ kindBit w = true := by
  unfold classify; cases tagBit w <;> cases kindBit w <;> simp; split_ifs <;> simp

/-- A control or reserved word, told from its fields. -/
theorem classify_control {w : Word} (ht : tagBit w = false) (hk : kindBit w = false) :
    classify w = if countField w = 0#14 then .bskip else if countField w = 1#14 then .eof
      else if countField w = 3#14 then .eoa else .reserved := by
  have hw := word_of_fields w
  simp only [ht, hk] at hw
  have key : ∀ c : BitVec 14, countField w = c ↔ w = c.setWidth 16 <<< 1 := by
    intro c
    constructor
    · intro h; rw [hw, h]; simp
    · intro h
      have := (fields_of_word false false c).2.2
      simp only [Bool.false_eq_true, if_false] at this
      rw [h]; simpa using this
  unfold classify
  simp only [ht, hk, key]
  rfl

theorem classify_bskip {w : Word} : classify w = .bskip ↔ w = 0x0000#16 := by
  constructor
  · intro h
    by_contra hne
    unfold classify at h
    cases ht : tagBit w <;> cases hk : kindBit w <;> simp only [ht, hk, hne, if_false] at h <;>
      first | cases h | (split_ifs at h)
  · rintro rfl; rfl

theorem classify_eof {w : Word} : classify w = .eof ↔ w = 0x0002#16 := by
  constructor
  · intro h
    unfold classify at h
    cases ht : tagBit w <;> cases hk : kindBit w <;> simp only [ht, hk] at h <;>
      first | cases h | (split_ifs at h; assumption)
  · rintro rfl; rfl

theorem classify_eoa {w : Word} : classify w = .eoa ↔ w = 0x0006#16 := by
  constructor
  · intro h
    unfold classify at h
    cases ht : tagBit w <;> cases hk : kindBit w <;> simp only [ht, hk] at h <;>
      first | cases h | (split_ifs at h; assumption)
  · rintro rfl; rfl

/-- A reserved word is one with `K = T = 0` whose count field is reserved. -/
theorem classify_reserved {w : Word} : classify w = .reserved ↔
    tagBit w = false ∧ kindBit w = false ∧ Instr.isReservedField (countField w) = true := by
  constructor
  · intro h
    have ht : tagBit w = false := by
      cases ht : tagBit w
      · rfl
      · exfalso; unfold classify at h; cases hk : kindBit w <;> simp [ht, hk] at h
    have hk : kindBit w = false := by
      cases hk : kindBit w
      · rfl
      · exfalso; unfold classify at h; simp [ht, hk] at h
    refine ⟨ht, hk, ?_⟩
    rw [classify_control ht hk] at h
    split_ifs at h with h1 h2 h3
    simp [Instr.isReservedField, h1, h2, h3]
  · rintro ⟨ht, hk, hc⟩
    rw [classify_control ht hk]
    simp only [Instr.isReservedField, bne_iff_ne, ne_eq, Bool.and_eq_true] at hc
    simp [hc.1.1, hc.1.2, hc.2]

/-- The command word of a well-formed instruction is of the instruction's class. -/
theorem classify_commandWord (i : Instr) (h : i.wf = true) : classify (commandWord i) = classOf i := by
  cases i with
  | lit payload =>
    obtain ⟨h1, h2, -⟩ := commandWord_lit payload h
    exact classify_lit.2 ⟨h2, h1⟩
  | skip count =>
    obtain ⟨h1, h2, -⟩ := commandWord_skip count
    exact classify_skip.2 ⟨h2, h1⟩
  | dcopy count offset =>
    obtain ⟨h1, h2, -⟩ := commandWord_dcopy count offset
    exact classify_dcopy.2 ⟨h2, h1⟩
  | bskip => rfl
  | eof => rfl
  | eoa => rfl
  | reserved count =>
    obtain ⟨h1, h2, h3⟩ := commandWord_reserved count
    exact classify_reserved.2 ⟨h2, h1, by rw [h3]; exact h⟩

/-! ### Lengths and the shape of decoding -/

/-- The length told from a command word, by its class (30_encoding.md R82). -/
theorem opcodeLength_eq (w : Word) : opcodeLength w =
    match classify w with
    | .lit => 2 + (countField w).toNat + 1
    | .dcopy => 4
    | _ => 2 := by
  unfold opcodeLength classify
  cases tagBit w <;> cases kindBit w <;> simp
  split_ifs <;> rfl

theorem opcodeLength_lit {w : Word} (h : classify w = .lit) :
    opcodeLength w = 2 + (countField w).toNat + 1 := by rw [opcodeLength_eq, h]

theorem opcodeLength_dcopy {w : Word} (h : classify w = .dcopy) : opcodeLength w = 4 := by
  rw [opcodeLength_eq, h]

theorem opcodeLength_short {w : Word} (h1 : classify w ≠ .lit) (h2 : classify w ≠ .dcopy) :
    opcodeLength w = 2 := by
  rw [opcodeLength_eq]; split <;> simp_all

theorem two_le_opcodeLength (w : Word) : 2 ≤ opcodeLength w := by
  unfold opcodeLength; split_ifs <;> omega

/-- `takeBytes` answers exactly the first `n` bytes and the rest. -/
theorem takeBytes_eq_some {n : Nat} {bytes taken rest : List Byte} :
    takeBytes n bytes = some (taken, rest) ↔ bytes = taken ++ rest ∧ taken.length = n := by
  induction n generalizing bytes taken rest with
  | zero =>
    simp only [takeBytes, Option.some.injEq, Prod.mk.injEq, List.length_eq_zero_iff]
    constructor
    · rintro ⟨rfl, rfl⟩; simp
    · rintro ⟨rfl, rfl⟩; simp
  | succ n ih =>
    cases bytes with
    | nil => simp only [takeBytes]; constructor <;> [simp; (rintro ⟨h, h'⟩; simp_all)]
    | cons b bytes =>
      simp only [takeBytes]
      cases h : takeBytes n bytes with
      | none =>
        simp only [reduceCtorEq, false_iff, not_and]
        intro heq hlen
        cases taken with
        | nil => simp at hlen
        | cons c taken =>
          simp only [List.cons_append, List.cons.injEq] at heq
          have := ih.2 ⟨heq.2, by simpa using hlen⟩
          simp [h] at this
      | some p =>
        obtain ⟨t, r⟩ := p
        obtain ⟨rfl, hl⟩ := ih.1 h
        simp only [Option.some.injEq, Prod.mk.injEq]
        constructor
        · rintro ⟨rfl, rfl⟩; simp [hl]
        · rintro ⟨heq, hlen⟩
          cases taken with
          | nil => simp at hlen
          | cons c taken =>
            simp only [List.cons_append, List.cons.injEq] at heq
            have := ih.2 ⟨heq.2, by simpa using hlen⟩
            rw [h] at this
            simp only [Option.some.injEq, Prod.mk.injEq] at this
            simp [heq.1, this.1, this.2]

theorem takeBytes_none {n : Nat} {bytes : List Byte} (h : takeBytes n bytes = none) :
    bytes.length < n := by
  by_contra hlt
  have hl : (bytes.take n).length = n := by rw [List.length_take]; omega
  have := takeBytes_eq_some.2 ⟨(List.take_append_drop n bytes).symm, hl⟩
  rw [h] at this
  cases this

/-- Everything a successful decode can be: the class and fields of the command word and the payload. -/
theorem decode_cases {bytes rest : List Byte} {i : Instr} (h : decode bytes = .ok (i, rest)) :
    ∃ lo hi more, bytes = lo :: hi :: more ∧
      ((∃ payload, i = .lit payload ∧ classify (leWord lo hi) = .lit ∧ more = payload ++ rest ∧
          payload.length = (countField (leWord lo hi)).toNat + 1) ∨
        (i = .skip (countField (leWord lo hi)) ∧ classify (leWord lo hi) = .skip ∧ more = rest) ∨
        (∃ olo ohi, i = .dcopy (countField (leWord lo hi)) (leWord olo ohi) ∧
          classify (leWord lo hi) = .dcopy ∧ more = olo :: ohi :: rest) ∨
        (i = .bskip ∧ classify (leWord lo hi) = .bskip ∧ more = rest) ∨
        (i = .eof ∧ classify (leWord lo hi) = .eof ∧ more = rest) ∨
        (i = .eoa ∧ classify (leWord lo hi) = .eoa ∧ more = rest) ∨
        (i = .reserved (countField (leWord lo hi)) ∧ classify (leWord lo hi) = .reserved ∧
          more = rest)) := by
  match bytes with
  | [] => simp [decode] at h
  | [_] => simp [decode] at h
  | lo :: hi :: more =>
    refine ⟨lo, hi, more, rfl, ?_⟩
    simp only [decode] at h
    split at h
    · next hc =>
      split at h
      · next payload rest' ht =>
        obtain ⟨rfl, hl⟩ := takeBytes_eq_some.1 ht
        cases h
        exact .inl ⟨payload, rfl, hc, rfl, hl⟩
      · cases h
    · next hc => cases h; exact .inr (.inl ⟨rfl, hc, rfl⟩)
    · next hc =>
      split at h
      · next olo ohi rest' => cases h; exact .inr (.inr (.inl ⟨olo, ohi, rfl, hc, rfl⟩))
      · cases h
    · next hc => cases h; exact .inr (.inr (.inr (.inl ⟨rfl, hc, rfl⟩)))
    · next hc => cases h; exact .inr (.inr (.inr (.inr (.inl ⟨rfl, hc, rfl⟩))))
    · next hc => cases h; exact .inr (.inr (.inr (.inr (.inr (.inl ⟨rfl, hc, rfl⟩)))))
    · next hc => cases h; exact .inr (.inr (.inr (.inr (.inr (.inr ⟨rfl, hc, rfl⟩)))))

/-- The bytes an opcode needs decode, whatever they are. -/
theorem decode_of_length {lo hi : Byte} {more : List Byte}
    (h : (lo :: hi :: more).length = opcodeLength (leWord lo hi)) :
    ∃ i, decode (lo :: hi :: more) = .ok (i, []) := by
  rw [opcodeLength_eq] at h
  simp only [List.length_cons] at h
  simp only [decode]
  cases hc : classify (leWord lo hi) <;> simp only [hc] at h ⊢
  case lit =>
    have h' : more.length + 1 + 1 = 2 + (countField (leWord lo hi)).toNat + 1 := h
    have hl : more.length = (countField (leWord lo hi)).toNat + 1 := by omega
    rw [takeBytes_eq_some.2 ⟨(List.append_nil more).symm, hl⟩]
    exact ⟨_, rfl⟩
  case dcopy =>
    match more, h with
    | [olo, ohi], _ => exact ⟨_, rfl⟩
  all_goals
    have hm : more = [] := by rw [← List.length_eq_zero_iff]; omega
    subst hm
    exact ⟨_, rfl⟩

end Sys2Proof
end

