-- ==== Sys2Proof/Laws/Memory.lean ====
section
/-! SUPPORT. What the memory operations do: reading after writing, the canonical form, and the runs of
writes of LIT and DCOPY. -/

namespace Sys2Proof.Machine

/-! ### One write -/

theorem lookup_store_same (m : Memory) (a : Nat) (v : Byte) : lookup (store m a v) a = some v := by
  induction m with
  | nil => simp [store, lookup]
  | cons cell m ih =>
    obtain ⟨k, w⟩ := cell
    unfold store
    split
    · simp [lookup]
    · split
      · simp [lookup]
      · next h1 h2 => simp [lookup, ih, show ¬ k = a from fun h => h2 h.symm]

theorem lookup_store_other (m : Memory) {a b : Nat} (v : Byte) (h : b ≠ a) :
    lookup (store m a v) b = lookup m b := by
  induction m with
  | nil => simp [store, lookup, Ne.symm h]
  | cons cell m ih =>
    obtain ⟨k, w⟩ := cell
    unfold store
    split
    · simp [lookup, Ne.symm h]
    · split
      · next _ h2 => subst h2; simp [lookup, Ne.symm h]
      · simp only [lookup]; split <;> simp_all

theorem mem_store {m : Memory} {a : Nat} {v : Byte} {cell : Host.Cell} (h : cell ∈ store m a v) :
    cell = (a, v) ∨ cell ∈ m := by
  induction m with
  | nil => simpa [store] using h
  | cons c m ih =>
    obtain ⟨k, w⟩ := c
    unfold store at h
    split at h
    · simpa using h
    · split at h
      · rcases List.mem_cons.1 h with rfl | h
        · exact .inl rfl
        · exact .inr (List.mem_cons_of_mem _ h)
      · rcases List.mem_cons.1 h with rfl | h
        · exact .inr (List.mem_cons_self ..)
        · rcases ih h with h | h
          · exact .inl h
          · exact .inr (List.mem_cons_of_mem _ h)

theorem store_wf {m : Memory} (h : Memory.wf m) (a : Nat) (v : Byte) : Memory.wf (store m a v) := by
  induction m with
  | nil => exact List.pairwise_singleton _ _
  | cons c m ih =>
    obtain ⟨k, w⟩ := c
    obtain ⟨hk, hm⟩ := List.pairwise_cons.1 h
    unfold store
    split
    · next hlt =>
      refine List.pairwise_cons.2 ⟨fun x hx => ?_, h⟩
      rcases List.mem_cons.1 hx with rfl | hx
      · exact hlt
      · exact lt_trans hlt (hk x hx)
    · split
      · next _ heq => subst heq; exact List.pairwise_cons.2 ⟨hk, hm⟩
      · next hge hne =>
        refine List.pairwise_cons.2 ⟨fun x hx => ?_, ih hm⟩
        rcases mem_store hx with rfl | hx
        · show k < a; omega
        · exact hk x hx

theorem store_inSpace {m : Memory} {bound : Nat} (h : ∀ cell ∈ m, cell.1 < bound) {a : Nat}
    (ha : a < bound) (v : Byte) : ∀ cell ∈ store m a v, cell.1 < bound := fun cell hc => by
  rcases mem_store hc with rfl | hc
  · exact ha
  · exact h cell hc

@[simp] theorem canvasByte_store_same (m : Memory) (a : Nat) (v : Byte) :
    canvasByte (store m a v) a = v := by simp [canvasByte, lookup_store_same]

theorem canvasByte_store_other (m : Memory) {a b : Nat} (v : Byte) (h : b ≠ a) :
    canvasByte (store m a v) b = canvasByte m b := by simp [canvasByte, lookup_store_other m v h]

@[simp] theorem streamByte_store_same (m : Memory) (a : Nat) (v : Byte) :
    streamByte (store m a v) a = v := by simp [streamByte, lookup_store_same]

theorem streamByte_store_other (m : Memory) {a b : Nat} (v : Byte) (h : b ≠ a) :
    streamByte (store m a v) b = streamByte m b := by simp [streamByte, lookup_store_other m v h]

/-! ### A run of writes -/

theorem storeRun_wf (bytes : List Byte) : ∀ {m : Memory} (a : Nat), Memory.wf m →
    Memory.wf (storeRun m a bytes) := by
  induction bytes with
  | nil => intro m a h; exact h
  | cons b bytes ih => intro m a h; exact ih (a + 1) (store_wf h a b)

theorem storeRun_inSpace (bytes : List Byte) {bound : Nat} : ∀ {m : Memory} (a : Nat),
    (∀ cell ∈ m, cell.1 < bound) → a + bytes.length ≤ bound →
    ∀ cell ∈ storeRun m a bytes, cell.1 < bound := by
  induction bytes with
  | nil => intro m a h _; exact h
  | cons b bytes ih =>
    intro m a h hb
    simp only [List.length_cons] at hb
    exact ih (a + 1) (store_inSpace h (by omega) b) (by omega)

theorem lookup_storeRun_outside (bytes : List Byte) : ∀ (m : Memory) (a j : Nat),
    (j < a ∨ a + bytes.length ≤ j) → lookup (storeRun m a bytes) j = lookup m j := by
  induction bytes with
  | nil => intro m a j _; rfl
  | cons b bytes ih =>
    intro m a j h
    simp only [List.length_cons] at h
    rw [storeRun, ih _ _ _ (by omega), lookup_store_other _ _ (by omega)]

theorem lookup_storeRun_inside (bytes : List Byte) : ∀ (m : Memory) (a i : Nat),
    i < bytes.length → lookup (storeRun m a bytes) (a + i) = bytes[i]? := by
  induction bytes with
  | nil => intro m a i h; simp at h
  | cons b bytes ih =>
    intro m a i h
    cases i with
    | zero =>
      rw [storeRun, lookup_storeRun_outside _ _ _ _ (by omega)]
      simp [lookup_store_same]
    | succ i =>
      simp only [List.length_cons] at h
      rw [storeRun, show a + (i + 1) = a + 1 + i by omega, ih _ _ _ (by omega)]
      simp

theorem canvasByte_storeRun_outside (bytes : List Byte) (m : Memory) (a j : Nat)
    (h : j < a ∨ a + bytes.length ≤ j) :
    canvasByte (storeRun m a bytes) j = canvasByte m j := by
  simp [canvasByte, lookup_storeRun_outside bytes m a j h]

theorem canvasByte_storeRun_inside (bytes : List Byte) (m : Memory) (a i : Nat)
    (h : i < bytes.length) : canvasByte (storeRun m a bytes) (a + i) = bytes[i] := by
  simp [canvasByte, lookup_storeRun_inside bytes m a i h, h]

theorem streamByte_storeRun_inside (bytes : List Byte) (m : Memory) (a i : Nat)
    (h : i < bytes.length) : streamByte (storeRun m a bytes) (a + i) = bytes[i] := by
  simp [streamByte, lookup_storeRun_inside bytes m a i h, h]

/-! ### The forward copy of DCOPY (40_data_opcodes.md R114) -/

theorem copyForward_wf (n : Nat) : ∀ {m : Memory} (src dst : Nat), Memory.wf m →
    Memory.wf (copyForward n m src dst) := by
  induction n with
  | zero => intro m src dst h; exact h
  | succ n ih => intro m src dst h; exact ih _ _ (store_wf h dst _)

theorem copyForward_inSpace (n : Nat) {bound : Nat} : ∀ {m : Memory} (src dst : Nat),
    (∀ cell ∈ m, cell.1 < bound) → dst + n ≤ bound →
    ∀ cell ∈ copyForward n m src dst, cell.1 < bound := by
  induction n with
  | zero => intro m src dst h _; exact h
  | succ n ih =>
    intro m src dst h hb
    exact ih _ _ (store_inSpace h (by omega) _) (by omega)

theorem canvasByte_copyForward_outside (n : Nat) : ∀ (m : Memory) (src dst j : Nat),
    (j < dst ∨ dst + n ≤ j) → canvasByte (copyForward n m src dst) j = canvasByte m j := by
  induction n with
  | zero => intro m src dst j _; rfl
  | succ n ih =>
    intro m src dst j h
    rw [copyForward, ih _ _ _ _ (by omega), canvasByte_store_other _ _ (by omega)]

/-- What transfer `i` writes: the byte that an earlier transfer wrote where there was one, and the old
byte elsewhere. -/
theorem canvasByte_copyForward_inside (n : Nat) : ∀ (m : Memory) (src dst i : Nat), i < n →
    canvasByte (copyForward n m src dst) (dst + i) =
      if dst ≤ src + i ∧ src + i < dst + i then canvasByte (copyForward n m src dst) (src + i)
      else canvasByte m (src + i) := by
  induction n with
  | zero => intro m src dst i h; omega
  | succ n ih =>
    intro m src dst i h
    cases i with
    | zero =>
      rw [if_neg (by omega)]
      simp only [Nat.add_zero]
      rw [copyForward,
        canvasByte_copyForward_outside _ _ _ _ _ (by omega), canvasByte_store_same]
    | succ i =>
      rw [copyForward, show dst + (i + 1) = dst + 1 + i by omega,
        show src + (i + 1) = src + 1 + i by omega, ih _ _ _ _ (by omega)]
      by_cases h1 : dst + 1 ≤ src + 1 + i ∧ src + 1 + i < dst + 1 + i
      · rw [if_pos h1, if_pos (by omega)]
      · rw [if_neg h1]
        by_cases h2 : dst = src + 1 + i
        · rw [if_pos (by omega), ← h2, canvasByte_store_same,
            canvasByte_copyForward_outside _ _ _ _ _ (by omega), canvasByte_store_same]
        · rw [if_neg (by omega), canvasByte_store_other _ _ (by omega)]

/-- A copy in two pieces makes the same transfers as one copy. -/
theorem copyForward_add (n k : Nat) : ∀ (m : Memory) (src dst : Nat),
    copyForward (n + k) m src dst = copyForward k (copyForward n m src dst) (src + n) (dst + n) := by
  induction n with
  | zero => intro m src dst; simp [copyForward]
  | succ n ih =>
    intro m src dst
    rw [show n + 1 + k = n + k + 1 by omega, copyForward, ih, copyForward,
      show src + 1 + n = src + (n + 1) by omega, show dst + 1 + n = dst + (n + 1) by omega]

/-! ### Canvases that agree below a bound stay so -/

theorem canvasByte_storeRun_congr (bytes : List Byte) (bound : Nat) : ∀ (m m' : Memory) (a : Nat),
    (∀ j, j < bound → canvasByte m' j = canvasByte m j) →
    ∀ j, j < bound → canvasByte (storeRun m' a bytes) j = canvasByte (storeRun m a bytes) j := by
  induction bytes with
  | nil => intro m m' a h; exact h
  | cons b bytes ih =>
    intro m m' a h
    refine ih _ _ _ fun j hj => ?_
    by_cases e : j = a
    · subst e; simp
    · rw [canvasByte_store_other _ _ e, canvasByte_store_other _ _ e, h j hj]

theorem canvasByte_copyForward_congr (n bound : Nat) : ∀ (m m' : Memory) (src dst : Nat),
    src + n ≤ bound → (∀ j, j < bound → canvasByte m' j = canvasByte m j) →
    ∀ j, j < bound → canvasByte (copyForward n m' src dst) j = canvasByte (copyForward n m src dst) j := by
  induction n with
  | zero => intro m m' src dst _ h; exact h
  | succ n ih =>
    intro m m' src dst hs h
    refine ih _ _ _ _ (by omega) fun j hj => ?_
    by_cases e : j = dst
    · subst e; simp [h src (by omega)]
    · rw [canvasByte_store_other _ _ e, canvasByte_store_other _ _ e, h j hj]

/-- Reading the canvas depends on the canvas alone (cite this; unifying states whose `RP` differ is slow). -/
theorem readCanvas_congr {s t : State} (h : t.canvas = s.canvas) (j : Nat) :
    readCanvas t j = readCanvas s j := by rw [readCanvas, readCanvas, h]

/-! ### Reading a run of the stream -/

@[simp] theorem readStreamRun_length (s : State) (n : Nat) : ∀ a, (readStreamRun s a n).length = n := by
  induction n with
  | zero => intro a; rfl
  | succ n ih => intro a; simp [readStreamRun, ih]

theorem readStreamRun_get (s : State) (n : Nat) : ∀ (a i : Nat) (h : i < (readStreamRun s a n).length),
    (readStreamRun s a n)[i] = readStream s (a + i) := by
  induction n with
  | zero => intro a i h; simp [readStreamRun] at h
  | succ n ih =>
    intro a i h
    cases i with
    | zero => simp [readStreamRun]
    | succ i => simp [readStreamRun, ih, show a + 1 + i = a + (i + 1) by omega]

/-- A run of the stream is the list of bytes it agrees with, byte by byte. -/
theorem readStreamRun_eq {s : State} {a : Nat} {bytes : List Byte}
    (h : ∀ i (hi : i < bytes.length), readStream s (a + i) = bytes[i]) :
    readStreamRun s a bytes.length = bytes :=
  List.ext_getElem (by simp) fun i h1 h2 => by rw [readStreamRun_get, h i h2]

end Sys2Proof.Machine
end

