-- ==== Sys2Proof/Laws/State.lean ====
section
/-! SUPPORT. One lemma per field and named update of the state, each true by rfl. -/

namespace Sys2Proof.Machine

section
variable (s : State)

/-! ### `decodeError` -/

@[simp] theorem decodeError_fsm (code : ErrorCode) :
    (decodeError code s).fsm = .error := rfl
@[simp] theorem decodeError_cursor (code : ErrorCode) :
    (decodeError code s).cursor = s.cursor := rfl
@[simp] theorem decodeError_rp (code : ErrorCode) :
    (decodeError code s).rp = s.rp := rfl
@[simp] theorem decodeError_startL (code : ErrorCode) :
    (decodeError code s).startL = s.startL := rfl
@[simp] theorem decodeError_fsizeL (code : ErrorCode) :
    (decodeError code s).fsizeL = s.fsizeL := rfl
@[simp] theorem decodeError_slenL (code : ErrorCode) :
    (decodeError code s).slenL = s.slenL := rfl
@[simp] theorem decodeError_strictL (code : ErrorCode) :
    (decodeError code s).strictL = s.strictL := rfl
@[simp] theorem decodeError_outConsumed (code : ErrorCode) :
    (decodeError code s).outConsumed = s.outConsumed := rfl
@[simp] theorem decodeError_outErrCode (code : ErrorCode) :
    (decodeError code s).outErrCode = code := rfl
@[simp] theorem decodeError_outErrOffset (code : ErrorCode) :
    (decodeError code s).outErrOffset = s.rp := rfl
@[simp] theorem decodeError_cfgFrameSize (code : ErrorCode) :
    (decodeError code s).cfgFrameSize = s.cfgFrameSize := rfl
@[simp] theorem decodeError_cfgStreamLen (code : ErrorCode) :
    (decodeError code s).cfgStreamLen = s.cfgStreamLen := rfl
@[simp] theorem decodeError_cfgStart (code : ErrorCode) :
    (decodeError code s).cfgStart = s.cfgStart := rfl
@[simp] theorem decodeError_cfgStrictBanks (code : ErrorCode) :
    (decodeError code s).cfgStrictBanks = s.cfgStrictBanks := rfl
@[simp] theorem decodeError_stream (code : ErrorCode) :
    (decodeError code s).stream = s.stream := rfl
@[simp] theorem decodeError_canvas (code : ErrorCode) :
    (decodeError code s).canvas = s.canvas := rfl
@[simp] theorem decodeError_inbox (code : ErrorCode) :
    (decodeError code s).inbox = s.inbox := rfl
@[simp] theorem decodeError_draws (code : ErrorCode) :
    (decodeError code s).draws = s.draws := rfl

/-! ### `advance` -/

@[simp] theorem advance_fsm (n len : Nat) :
    (advance n len s).fsm = s.fsm := rfl
@[simp] theorem advance_cursor (n len : Nat) :
    (advance n len s).cursor = BitVec.ofNat 17 (s.cursor.toNat + n) := rfl
@[simp] theorem advance_rp (n len : Nat) :
    (advance n len s).rp = BitVec.ofNat 33 (s.rp.toNat + len) := rfl
@[simp] theorem advance_startL (n len : Nat) :
    (advance n len s).startL = s.startL := rfl
@[simp] theorem advance_fsizeL (n len : Nat) :
    (advance n len s).fsizeL = s.fsizeL := rfl
@[simp] theorem advance_slenL (n len : Nat) :
    (advance n len s).slenL = s.slenL := rfl
@[simp] theorem advance_strictL (n len : Nat) :
    (advance n len s).strictL = s.strictL := rfl
@[simp] theorem advance_outConsumed (n len : Nat) :
    (advance n len s).outConsumed = s.outConsumed := rfl
@[simp] theorem advance_outErrCode (n len : Nat) :
    (advance n len s).outErrCode = s.outErrCode := rfl
@[simp] theorem advance_outErrOffset (n len : Nat) :
    (advance n len s).outErrOffset = s.outErrOffset := rfl
@[simp] theorem advance_cfgFrameSize (n len : Nat) :
    (advance n len s).cfgFrameSize = s.cfgFrameSize := rfl
@[simp] theorem advance_cfgStreamLen (n len : Nat) :
    (advance n len s).cfgStreamLen = s.cfgStreamLen := rfl
@[simp] theorem advance_cfgStart (n len : Nat) :
    (advance n len s).cfgStart = s.cfgStart := rfl
@[simp] theorem advance_cfgStrictBanks (n len : Nat) :
    (advance n len s).cfgStrictBanks = s.cfgStrictBanks := rfl
@[simp] theorem advance_stream (n len : Nat) :
    (advance n len s).stream = s.stream := rfl
@[simp] theorem advance_canvas (n len : Nat) :
    (advance n len s).canvas = s.canvas := rfl
@[simp] theorem advance_inbox (n len : Nat) :
    (advance n len s).inbox = s.inbox := rfl
@[simp] theorem advance_draws (n len : Nat) :
    (advance n len s).draws = s.draws := rfl

/-! ### `endRun` -/

@[simp] theorem endRun_fsm (terminal : FsmState) :
    (endRun terminal s).fsm = terminal := rfl
@[simp] theorem endRun_cursor (terminal : FsmState) :
    (endRun terminal s).cursor = s.cursor := rfl
@[simp] theorem endRun_rp (terminal : FsmState) :
    (endRun terminal s).rp = BitVec.ofNat 33 (s.rp.toNat + 2) := rfl
@[simp] theorem endRun_startL (terminal : FsmState) :
    (endRun terminal s).startL = s.startL := rfl
@[simp] theorem endRun_fsizeL (terminal : FsmState) :
    (endRun terminal s).fsizeL = s.fsizeL := rfl
@[simp] theorem endRun_slenL (terminal : FsmState) :
    (endRun terminal s).slenL = s.slenL := rfl
@[simp] theorem endRun_strictL (terminal : FsmState) :
    (endRun terminal s).strictL = s.strictL := rfl
@[simp] theorem endRun_outConsumed (terminal : FsmState) :
    (endRun terminal s).outConsumed = BitVec.ofNat 33 (s.rp.toNat + 2 - s.startL.toNat) := rfl
@[simp] theorem endRun_outErrCode (terminal : FsmState) :
    (endRun terminal s).outErrCode = s.outErrCode := rfl
@[simp] theorem endRun_outErrOffset (terminal : FsmState) :
    (endRun terminal s).outErrOffset = s.outErrOffset := rfl
@[simp] theorem endRun_cfgFrameSize (terminal : FsmState) :
    (endRun terminal s).cfgFrameSize = s.cfgFrameSize := rfl
@[simp] theorem endRun_cfgStreamLen (terminal : FsmState) :
    (endRun terminal s).cfgStreamLen = s.cfgStreamLen := rfl
@[simp] theorem endRun_cfgStart (terminal : FsmState) :
    (endRun terminal s).cfgStart = s.cfgStart := rfl
@[simp] theorem endRun_cfgStrictBanks (terminal : FsmState) :
    (endRun terminal s).cfgStrictBanks = s.cfgStrictBanks := rfl
@[simp] theorem endRun_stream (terminal : FsmState) :
    (endRun terminal s).stream = s.stream := rfl
@[simp] theorem endRun_canvas (terminal : FsmState) :
    (endRun terminal s).canvas = s.canvas := rfl
@[simp] theorem endRun_inbox (terminal : FsmState) :
    (endRun terminal s).inbox = s.inbox := rfl
@[simp] theorem endRun_draws (terminal : FsmState) :
    (endRun terminal s).draws = s.draws := rfl

/-! ### `latch` -/

@[simp] theorem latch_fsm :
    (latch s).fsm = s.fsm := rfl
@[simp] theorem latch_cursor :
    (latch s).cursor = 0 := rfl
@[simp] theorem latch_rp :
    (latch s).rp = s.cfgStart.setWidth 33 := rfl
@[simp] theorem latch_startL :
    (latch s).startL = s.cfgStart := rfl
@[simp] theorem latch_fsizeL :
    (latch s).fsizeL = s.cfgFrameSize := rfl
@[simp] theorem latch_slenL :
    (latch s).slenL = s.cfgStreamLen := rfl
@[simp] theorem latch_strictL :
    (latch s).strictL = s.cfgStrictBanks := rfl
@[simp] theorem latch_outConsumed :
    (latch s).outConsumed = 0 := rfl
@[simp] theorem latch_outErrCode :
    (latch s).outErrCode = .none := rfl
@[simp] theorem latch_outErrOffset :
    (latch s).outErrOffset = 0 := rfl
@[simp] theorem latch_cfgFrameSize :
    (latch s).cfgFrameSize = s.cfgFrameSize := rfl
@[simp] theorem latch_cfgStreamLen :
    (latch s).cfgStreamLen = s.cfgStreamLen := rfl
@[simp] theorem latch_cfgStart :
    (latch s).cfgStart = s.cfgStart := rfl
@[simp] theorem latch_cfgStrictBanks :
    (latch s).cfgStrictBanks = s.cfgStrictBanks := rfl
@[simp] theorem latch_stream :
    (latch s).stream = s.stream := rfl
@[simp] theorem latch_canvas :
    (latch s).canvas = s.canvas := rfl
@[simp] theorem latch_inbox :
    (latch s).inbox = s.inbox := rfl
@[simp] theorem latch_draws :
    (latch s).draws = s.draws := rfl

/-! ### `applyReset` -/

@[simp] theorem applyReset_fsm :
    (applyReset s).fsm = State.reset.fsm := rfl
@[simp] theorem applyReset_cursor :
    (applyReset s).cursor = State.reset.cursor := rfl
@[simp] theorem applyReset_rp :
    (applyReset s).rp = State.reset.rp := rfl
@[simp] theorem applyReset_startL :
    (applyReset s).startL = State.reset.startL := rfl
@[simp] theorem applyReset_fsizeL :
    (applyReset s).fsizeL = State.reset.fsizeL := rfl
@[simp] theorem applyReset_slenL :
    (applyReset s).slenL = State.reset.slenL := rfl
@[simp] theorem applyReset_strictL :
    (applyReset s).strictL = State.reset.strictL := rfl
@[simp] theorem applyReset_outConsumed :
    (applyReset s).outConsumed = State.reset.outConsumed := rfl
@[simp] theorem applyReset_outErrCode :
    (applyReset s).outErrCode = State.reset.outErrCode := rfl
@[simp] theorem applyReset_outErrOffset :
    (applyReset s).outErrOffset = State.reset.outErrOffset := rfl
@[simp] theorem applyReset_cfgFrameSize :
    (applyReset s).cfgFrameSize = State.reset.cfgFrameSize := rfl
@[simp] theorem applyReset_cfgStreamLen :
    (applyReset s).cfgStreamLen = State.reset.cfgStreamLen := rfl
@[simp] theorem applyReset_cfgStart :
    (applyReset s).cfgStart = State.reset.cfgStart := rfl
@[simp] theorem applyReset_cfgStrictBanks :
    (applyReset s).cfgStrictBanks = State.reset.cfgStrictBanks := rfl
@[simp] theorem applyReset_stream :
    (applyReset s).stream = s.stream := rfl
@[simp] theorem applyReset_canvas :
    (applyReset s).canvas = s.canvas := rfl
@[simp] theorem applyReset_inbox :
    (applyReset s).inbox = s.inbox := rfl
@[simp] theorem applyReset_draws :
    (applyReset s).draws = s.draws := rfl

end

end Sys2Proof.Machine
end

