-- ==== Sys2Proof/Laws/Exec.lean ====
section
/-! SUPPORT. The checks as numbers, and everything an opcode can do, said once. -/

namespace Sys2Proof.Machine

/-! ### The checks as numbers -/

theorem streamShort_iff {s : State} {len : Nat} :
    streamShort s len = true ↔ s.slenL.toNat < s.rp.toNat + len := by simp [streamShort]

theorem streamShort_false {s : State} {len : Nat} :
    streamShort s len = false ↔ s.rp.toNat + len ≤ s.slenL.toNat := by simp [streamShort]

theorem destOverrun_iff {s : State} {n : Nat} :
    destOverrun s n = true ↔ s.fsizeL.toNat < s.cursor.toNat + n := by simp [destOverrun]

theorem destOverrun_false {s : State} {n : Nat} :
    destOverrun s n = false ↔ s.cursor.toNat + n ≤ s.fsizeL.toNat := by simp [destOverrun]

theorem srcOverrun_iff {s : State} {src n : Nat} :
    srcOverrun s src n = true ↔ s.fsizeL.toNat < src + n := by simp [srcOverrun]

theorem srcOverrun_false {s : State} {src n : Nat} :
    srcOverrun s src n = false ↔ src + n ≤ s.fsizeL.toNat := by simp [srcOverrun]

theorem bankOf_eq (a : Nat) : bankOf a = a / 65536 := by
  simp [bankOf, Nat.shiftRight_eq_div_pow]

theorem crossesBank_iff {s : State} {len : Nat} : crossesBank s len = true ↔
    s.strictL = true ∧ s.rp.toNat / 65536 ≠ (s.rp.toNat + len - 1) / 65536 := by
  simp [crossesBank, bankOf_eq]

theorem crossesBank_false {s : State} {len : Nat} : crossesBank s len = false ↔
    ¬ (s.strictL = true ∧ s.rp.toNat / 65536 ≠ (s.rp.toNat + len - 1) / 65536) := by
  rw [← crossesBank_iff]; simp

/-- A two-byte opcode straddles two banks exactly at the last offset of a bank (40_data_opcodes.md R108). -/
theorem straddles_iff (a : Nat) : a / 65536 ≠ (a + 2 - 1) / 65536 ↔ a % 65536 = 0xFFFF := by omega

/-- `(a & ~0xFFFF) + 0x10000` as a number (00_scope.md R12). -/
theorem nextBank_toNat {a : BitVec 33} (h : a.toNat ≤ 2 ^ 32) :
    (nextBank a).toNat = (a.toNat / 65536 + 1) * 65536 := by
  have hmask : a &&& ~~~0xFFFF#33 = (a >>> 16) <<< 16 := by
    apply BitVec.eq_of_getLsbD_eq
    intro i hi
    by_cases h16 : i < 16
    · interval_cases i <;> simp
    · have : (~~~0xFFFF#33).getLsbD i = true := by interval_cases i <;> simp_all
      rw [BitVec.getLsbD_and, this]
      simp [h16, hi, show 16 + (i - 16) = i by omega]
  rw [nextBank, hmask, BitVec.toNat_add, BitVec.toNat_shiftLeft, BitVec.toNat_ushiftRight,
    Nat.shiftLeft_eq, Nat.shiftRight_eq_div_pow]
  simp only [BitVec.toNat_ofNat]
  omega

/-- `src` as a number (30_encoding.md R85). -/
theorem srcOf_eq (offset : Word) : srcOf offset = (offset.toNat + (65536 - 0x2000)) % 65536 := by
  simp [srcOf, Config.offsetBias, BitVec.toNat_sub]; omega

theorem countOf_field (w : Word) : countOf (countField w) = w.toNat / 2 % 2 ^ 14 + 1 := by
  rw [countOf, countField_toNat]

/-! ### Raising or completing -/

/-- Either a check fails and its error is raised, or none does and the effect happens. -/
theorem guarded_cases (checks : List (ErrorCode × Bool)) (s done : State) :
    (∃ code, (code, true) ∈ checks ∧ guarded checks s done = decodeError code s) ∨
      ((∀ check ∈ checks, check.2 = false) ∧ guarded checks s done = done) := by
  induction checks with
  | nil => right; simp [guarded]
  | cons check checks ih =>
    obtain ⟨code, fails⟩ := check
    cases fails with
    | true => left; exact ⟨code, by simp, by simp [guarded]⟩
    | false =>
      rcases ih with ⟨c, hc, h⟩ | ⟨hc, h⟩
      · left; exact ⟨c, List.mem_cons_of_mem _ hc, by simpa [guarded] using h⟩
      · right; exact ⟨by simpa using hc, by simpa [guarded] using h⟩

/-- A change of the state that commutes with raising an error commutes with the checks. -/
theorem guarded_map (f : State → State) (hf : ∀ code s, f (decodeError code s) = decodeError code (f s))
    (checks : List (ErrorCode × Bool)) (s done : State) :
    f (guarded checks s done) = guarded checks (f s) (f done) := by
  induction checks with
  | nil => rfl
  | cons check checks ih => obtain ⟨code, fails⟩ := check; cases fails <;> simp [guarded, ih, hf]

/-- What an opcode does when it completes, with the checks it has passed. -/
inductive Completes : Instr → State → State → Prop where
  | lit {payload : List Byte} {s : State}
      (inStream : s.rp.toNat + (2 + payload.length) ≤ s.slenL.toNat)
      (inBank : crossesBank s (2 + payload.length) = false)
      (inFrame : s.cursor.toNat + payload.length ≤ s.fsizeL.toNat) :
      Completes (.lit payload) s (advance payload.length (2 + payload.length)
        { s with canvas := storeRun s.canvas s.cursor.toNat payload })
  | skip {count : BitVec 14} {s : State}
      (inBank : crossesBank s 2 = false)
      (inFrame : s.cursor.toNat + countOf count ≤ s.fsizeL.toNat) :
      Completes (.skip count) s (advance (countOf count) 2 s)
  | dcopy {count : BitVec 14} {offset : Word} {s : State}
      (inStream : s.rp.toNat + 4 ≤ s.slenL.toNat)
      (inBank : crossesBank s 4 = false)
      (inFrame : s.cursor.toNat + countOf count ≤ s.fsizeL.toNat)
      (srcInFrame : srcOf offset + countOf count ≤ s.fsizeL.toNat) :
      Completes (.dcopy count offset) s (advance (countOf count) 4
        { s with
          canvas := copyForward (countOf count) s.canvas (srcOf offset) s.cursor.toNat })
  | bskip {s : State} (inBank : crossesBank s 2 = false) :
      Completes .bskip s { s with rp := nextBank s.rp }
  | eof {s : State} (inBank : crossesBank s 2 = false) :
      Completes .eof s (endRun .endOfFrame s)
  | eoa {s : State} (inBank : crossesBank s 2 = false) :
      Completes .eoa s (endRun .endOfAnimation s)

/-- The count `n` of an opcode that moves the cursor. -/
def moveCount : Instr → Nat
  | .lit payload => payload.length
  | .skip count => countOf count
  | .dcopy count _ => countOf count
  | .bskip => 0
  | .eof => 0
  | .eoa => 0
  | .reserved _ => 0

/-- The condition under which an opcode raises an error (60_exceptions.md R180). -/
def RaiseReason (i : Instr) (s : State) : ErrorCode → Prop
  | .none => False
  | .reserved => classOf i = .reserved
  | .stream => streamShort s (sizeOfInstr i) = true
  | .dest => destOverrun s (moveCount i) = true
  | .src => ∃ count offset, i = .dcopy count offset ∧
      srcOverrun s (srcOf offset) (countOf count) = true
  | .bank => crossesBank s (sizeOfInstr i) = true
  | .config => False

theorem RaiseReason.ne_none {i : Instr} {s : State} {code : ErrorCode} (h : RaiseReason i s code) :
    code ≠ .none := by rintro rfl; exact h

theorem RaiseReason.ne_config {i : Instr} {s : State} {code : ErrorCode} (h : RaiseReason i s code) :
    code ≠ .config := by rintro rfl; exact h

/-- The recorded code tells which error was raised. -/
theorem decodeError_injective {s : State} {code code' : ErrorCode}
    (h : decodeError code s = decodeError code' s) : code = code' := congrArg State.outErrCode h

/-- Everything an opcode can do: raise one of the five decode errors, or complete. -/
theorem exec_cases {i : Instr} {s t : State} (h : exec i s = .next t) :
    (∃ code, RaiseReason i s code ∧ t = decodeError code s) ∨ Completes i s t := by
  cases i with
  | lit payload =>
    injection h with h
    subst h
    rcases guarded_cases [(.stream, streamShort s (2 + payload.length)),
        (.bank, crossesBank s (2 + payload.length)), (.dest, destOverrun s payload.length)] s
        (advance payload.length (2 + payload.length)
          { s with canvas := storeRun s.canvas s.cursor.toNat payload }) with ⟨c, hc, h⟩ | ⟨hc, h⟩
    · refine .inl ⟨c, ?_, h⟩
      simp at hc
      rcases hc with ⟨rfl, hb⟩ | ⟨rfl, hb⟩ | ⟨rfl, hb⟩ <;> exact hb
    · right; rw [h]; simp at hc
      exact .lit (streamShort_false.1 hc.1) hc.2.1 (destOverrun_false.1 hc.2.2)
  | skip count =>
    injection h with h
    subst h
    rcases guarded_cases [(.bank, crossesBank s 2), (.dest, destOverrun s (countOf count))] s
        (advance (countOf count) 2 s) with ⟨c, hc, h⟩ | ⟨hc, h⟩
    · refine .inl ⟨c, ?_, h⟩
      simp at hc
      rcases hc with ⟨rfl, hb⟩ | ⟨rfl, hb⟩ <;> exact hb
    · right; rw [h]; simp at hc
      exact .skip hc.1 (destOverrun_false.1 hc.2)
  | dcopy count offset =>
    injection h with h
    subst h
    rcases guarded_cases [(.stream, streamShort s 4), (.bank, crossesBank s 4),
        (.dest, destOverrun s (countOf count)),
        (.src, srcOverrun s (srcOf offset) (countOf count))] s
        (advance (countOf count) 4 { s with
          canvas := copyForward (countOf count) s.canvas (srcOf offset) s.cursor.toNat })
        with ⟨c, hc, h⟩ | ⟨hc, h⟩
    · refine .inl ⟨c, ?_, h⟩
      simp at hc
      rcases hc with ⟨rfl, hb⟩ | ⟨rfl, hb⟩ | ⟨rfl, hb⟩ | ⟨rfl, hb⟩ <;>
        first | exact ⟨count, offset, rfl, hb⟩ | exact hb
    · right; rw [h]; simp at hc
      exact .dcopy (streamShort_false.1 hc.1) hc.2.1 (destOverrun_false.1 hc.2.2.1)
        (srcOverrun_false.1 hc.2.2.2)
  | bskip =>
    injection h with h
    subst h
    rcases guarded_cases [(.bank, crossesBank s 2)] s { s with rp := nextBank s.rp }
      with ⟨c, hc, h⟩ | ⟨hc, h⟩
    · refine .inl ⟨c, ?_, h⟩
      simp at hc
      obtain ⟨rfl, hb⟩ := hc
      exact hb
    · right; rw [h]; exact .bskip (by simpa using hc)
  | eof =>
    injection h with h
    subst h
    rcases guarded_cases [(.bank, crossesBank s 2)] s (endRun .endOfFrame s)
      with ⟨c, hc, h⟩ | ⟨hc, h⟩
    · refine .inl ⟨c, ?_, h⟩
      simp at hc
      obtain ⟨rfl, hb⟩ := hc
      exact hb
    · right; rw [h]; exact .eof (by simpa using hc)
  | eoa =>
    injection h with h
    subst h
    rcases guarded_cases [(.bank, crossesBank s 2)] s (endRun .endOfAnimation s)
      with ⟨c, hc, h⟩ | ⟨hc, h⟩
    · refine .inl ⟨c, ?_, h⟩
      simp at hc
      obtain ⟨rfl, hb⟩ := hc
      exact hb
    · right; rw [h]; exact .eoa (by simpa using hc)
  | reserved count =>
    injection h with h
    subst h
    exact .inl ⟨.reserved, rfl, rfl⟩

/-- An opcode whose checks all pass completes. -/
theorem exec_of_completes {i : Instr} {s t : State} (h : Completes i s t) : exec i s = .next t := by
  cases h with
  | lit inStream inBank inFrame =>
    simp only [exec, execLit, guarded, streamShort_false.2 inStream, inBank,
      destOverrun_false.2 inFrame, Bool.false_eq_true, if_false]
  | skip inBank inFrame =>
    simp only [exec, execSkip, guarded, inBank, destOverrun_false.2 inFrame, Bool.false_eq_true,
      if_false]
  | dcopy inStream inBank inFrame srcInFrame =>
    simp only [exec, execDcopy, guarded, streamShort_false.2 inStream, inBank,
      destOverrun_false.2 inFrame, srcOverrun_false.2 srcInFrame, Bool.false_eq_true, if_false]
  | bskip inBank => simp only [exec, execBskip, guarded, inBank, Bool.false_eq_true, if_false]
  | eof inBank => simp only [exec, execEof, guarded, inBank, Bool.false_eq_true, if_false]
  | eoa inBank => simp only [exec, execEoa, guarded, inBank, Bool.false_eq_true, if_false]

/-- Every opcode answers a next state. -/
theorem exec_next (i : Instr) (s : State) : ∃ t, exec i s = .next t := by
  cases i <;> exact ⟨_, rfl⟩

/-- An opcode that completes from Running does not end in Error. -/
theorem Completes.fsm_ne_error {i : Instr} {s t : State} (h : Completes i s t)
    (hs : s.fsm = .running) : t.fsm ≠ .error := by
  cases h <;> simp [hs]

/-- Where an opcode of a Running block does not end in Error, it completed. -/
theorem completes_of_exec {i : Instr} {s t : State} (h : exec i s = .next t)
    (ht : t.fsm ≠ .error) : Completes i s t := by
  rcases exec_cases h with ⟨code, -, rfl⟩ | h
  · exact absurd rfl ht
  · exact h

end Sys2Proof.Machine
end

