-- ==== Sys2Proof/Laws/Fetch.lean ====
section
/-! SUPPORT. What the fetch answers, and everything the decoder's turn can do, said once. -/

namespace Sys2Proof.Machine

/-- The bytes the fetch answers, and that they are in the stream. -/
theorem fetch_eq_some {s : State} {bytes : List Byte} : fetch s = some bytes ↔
    s.rp.toNat + 2 ≤ s.slenL.toNat ∧
      s.rp.toNat + opcodeLength (readStreamWord s s.rp.toNat) ≤ s.slenL.toNat ∧
      bytes = readStreamRun s s.rp.toNat (opcodeLength (readStreamWord s s.rp.toNat)) := by
  unfold fetch
  cases h : streamShort s 2 with
  | true => simp [streamShort_iff] at h ⊢; omega
  | false =>
    have h' := streamShort_false.1 h
    simp only [Bool.false_eq_true, if_false]
    cases hl : streamShort s (opcodeLength (readStreamWord s s.rp.toNat)) with
    | true => simp [streamShort_iff] at hl ⊢; omega
    | false => simp [streamShort_false.1 hl, h', eq_comm]

theorem fetch_eq_none {s : State} : fetch s = none ↔
    s.slenL.toNat < s.rp.toNat + 2 ∨
      s.slenL.toNat < s.rp.toNat + opcodeLength (readStreamWord s s.rp.toNat) := by
  cases h : fetch s with
  | none =>
    simp only [true_iff]
    by_contra hc
    rw [not_or] at hc
    have := fetch_eq_some.2 ⟨Nat.le_of_not_lt hc.1, Nat.le_of_not_lt hc.2, rfl⟩
    rw [h] at this
    cases this
  | some bytes =>
    obtain ⟨h1, h2, -⟩ := fetch_eq_some.1 h
    simp only [reduceCtorEq, false_iff]
    omega

/-- A run of at least two stream bytes begins with the two bytes of the word there. -/
theorem readStreamRun_word (s : State) (a n : Nat) (h : 2 ≤ n) :
    ∃ more, readStreamRun s a n = readStream s a :: readStream s (a + 1) :: more ∧
      more.length = n - 2 := by
  match n, h with
  | n + 2, _ => exact ⟨readStreamRun s (a + 2) n, rfl, by simp⟩

/-- A fetch always decodes, to an instruction that takes all of its bytes. -/
theorem fetchInstr_of_fetch {s : State} {bytes : List Byte} (h : fetch s = some bytes) :
    ∃ i, decode bytes = .ok (i, []) ∧ fetchInstr s = some i := by
  obtain ⟨-, -, rfl⟩ := fetch_eq_some.1 h
  obtain ⟨more, hm, hl⟩ := readStreamRun_word s s.rp.toNat _
    (two_le_opcodeLength (readStreamWord s s.rp.toNat))
  have h2 := two_le_opcodeLength (readStreamWord s s.rp.toNat)
  obtain ⟨i, hi⟩ := decode_of_length (lo := readStream s s.rp.toNat)
    (hi := readStream s (s.rp.toNat + 1)) (more := more)
    (by simp only [List.length_cons, hl]; show _ = opcodeLength (readStreamWord s s.rp.toNat); omega)
  rw [← hm] at hi
  exact ⟨i, hi, by simp [fetchInstr, h, hi]⟩

theorem fetchInstr_eq_none {s : State} : fetchInstr s = none ↔
    s.slenL.toNat < s.rp.toNat + 2 ∨
      s.slenL.toNat < s.rp.toNat + opcodeLength (readStreamWord s s.rp.toNat) := by
  rw [← fetch_eq_none]
  cases h : fetch s with
  | none => simp [fetchInstr, h]
  | some bytes => obtain ⟨i, -, hi⟩ := fetchInstr_of_fetch h; simp [hi]

/-- The size, class and length that a decode of exactly its bytes shows. -/
theorem decode_all {lo hi : Byte} {more : List Byte} {i : Instr}
    (h : decode (lo :: hi :: more) = .ok (i, [])) :
    classify (leWord lo hi) = classOf i ∧ opcodeLength (leWord lo hi) = sizeOfInstr i ∧
      (lo :: hi :: more).length = sizeOfInstr i := by
  obtain ⟨lo', hi', more', heq, hc⟩ := decode_cases h
  simp only [List.cons.injEq] at heq
  obtain ⟨rfl, rfl, rfl⟩ := heq
  rcases hc with ⟨p, rfl, hc, hm, hl⟩ | ⟨rfl, hc, hm⟩ | ⟨olo, ohi, rfl, hc, hm⟩ | ⟨rfl, hc, hm⟩ |
    ⟨rfl, hc, hm⟩ | ⟨rfl, hc, hm⟩ | ⟨rfl, hc, hm⟩ <;> subst hm <;>
    refine ⟨hc, ?_, by simp [sizeOfInstr, encodedPayload, leBytes] <;> omega⟩
  · rw [opcodeLength_lit hc]; simp only [sizeOfInstr, encodedPayload]; omega
  · rw [opcodeLength_short (by simp [hc]) (by simp [hc])]; rfl
  · rw [opcodeLength_dcopy hc]; rfl
  all_goals rw [opcodeLength_short (by simp [hc]) (by simp [hc])]; rfl

/-- What a fetched instruction says of the stream: its bytes are there and decode to it. -/
theorem fetchInstr_eq_some {s : State} {i : Instr} (h : fetchInstr s = some i) :
    s.rp.toNat + 2 ≤ s.slenL.toNat ∧ s.rp.toNat + sizeOfInstr i ≤ s.slenL.toNat ∧
      classify (readStreamWord s s.rp.toNat) = classOf i ∧
      opcodeLength (readStreamWord s s.rp.toNat) = sizeOfInstr i ∧
      decode (readStreamRun s s.rp.toNat (sizeOfInstr i)) = .ok (i, []) := by
  cases hf : fetch s with
  | none => simp [fetchInstr, hf] at h
  | some bytes =>
    obtain ⟨i', hd, hi'⟩ := fetchInstr_of_fetch hf
    rw [h] at hi'
    injection hi' with hi'
    subst hi'
    obtain ⟨h1, h2, rfl⟩ := fetch_eq_some.1 hf
    obtain ⟨more, hm, -⟩ := readStreamRun_word s s.rp.toNat _
      (two_le_opcodeLength (readStreamWord s s.rp.toNat))
    have hd' := hd
    rw [hm] at hd'
    obtain ⟨hc, hl, -⟩ := decode_all hd'
    have hl' : opcodeLength (readStreamWord s s.rp.toNat) = sizeOfInstr i := hl
    rw [hl'] at h2 hd
    exact ⟨h1, h2, hc, hl', hd⟩

/-- Bytes of the stream at `RP` that decode to an instruction are what the fetch answers. -/
theorem fetchInstr_of_decode {s : State} {bytes : List Byte} {i : Instr}
    (hs : s.rp.toNat + bytes.length ≤ s.slenL.toNat)
    (hr : readStreamRun s s.rp.toNat bytes.length = bytes) (hd : decode bytes = .ok (i, [])) :
    fetchInstr s = some i := by
  obtain ⟨lo, hi, more, rfl, -⟩ := decode_cases hd
  obtain ⟨-, hl, hlen⟩ := decode_all hd
  obtain ⟨more', hm, -⟩ := readStreamRun_word s s.rp.toNat (lo :: hi :: more).length
    (by simp)
  rw [hm] at hr
  simp only [List.cons.injEq] at hr
  have hw : readStreamWord s s.rp.toNat = leWord lo hi := by
    rw [readStreamWord, hr.1, hr.2.1]
  have hf : fetch s = some (lo :: hi :: more) := by
    rw [fetch_eq_some, hw, hl, ← hlen]
    refine ⟨?_, hs, ?_⟩
    · simp only [List.length_cons] at hs; omega
    · rw [hm, hr.1, hr.2.1, hr.2.2]
  simp [fetchInstr, hf, hd]

/-- The operands of a fetched instruction are the fields of its command word and the stream bytes after
it (30_encoding.md R80, R81). -/
theorem fetchInstr_operands {s : State} {i : Instr} (h : fetchInstr s = some i) :
    match i with
    | .lit payload => payload = readStreamRun s (s.rp.toNat + 2)
        (countOf (countField (readStreamWord s s.rp.toNat)))
    | .skip count => count = countField (readStreamWord s s.rp.toNat)
    | .dcopy count offset => count = countField (readStreamWord s s.rp.toNat) ∧
        offset = readStreamWord s (s.rp.toNat + 2)
    | .reserved count => count = countField (readStreamWord s s.rp.toNat)
    | .bskip => True
    | .eof => True
    | .eoa => True := by
  obtain ⟨-, -, -, -, hd⟩ := fetchInstr_eq_some h
  obtain ⟨n, hn⟩ : ∃ n, sizeOfInstr i = n + 2 := ⟨_, Nat.add_comm _ _⟩
  rw [hn] at hd
  obtain ⟨lo, hi, more, heq, hc⟩ := decode_cases hd
  simp only [readStreamRun, List.cons.injEq] at heq
  obtain ⟨rfl, rfl, rfl⟩ := heq
  rcases hc with ⟨p, rfl, hc, hm, hl⟩ | ⟨rfl, hc, hm⟩ | ⟨olo, ohi, rfl, hc, hm⟩ | ⟨rfl, hc, hm⟩ |
    ⟨rfl, hc, hm⟩ | ⟨rfl, hc, hm⟩ | ⟨rfl, hc, hm⟩
  · have hlen := congrArg List.length hm
    rw [readStreamRun_length, List.append_nil, hl] at hlen
    rw [hlen, List.append_nil] at hm
    exact hm.symm
  · rfl
  · have hlen := congrArg List.length hm
    rw [readStreamRun_length] at hlen
    subst hlen
    simp only [List.length_cons, List.length_nil, readStreamRun, List.cons.injEq, and_true] at hm
    exact ⟨rfl, by rw [readStreamWord, hm.1, hm.2]⟩
  · trivial
  · trivial
  · trivial
  · rfl

theorem readStreamRun_congr {s s' : State} (n : Nat) : ∀ a,
    (∀ b, a ≤ b → b < a + n → readStream s b = readStream s' b) →
    readStreamRun s a n = readStreamRun s' a n := by
  induction n with
  | zero => intro a _; rfl
  | succ n ih =>
    intro a h
    simp only [readStreamRun]
    rw [h a le_rfl (by omega), ih (a + 1) (fun b h1 h2 => h b (by omega) (by omega))]

/-- The fetch depends only on `RP`, `SLEN_L` and the stream below `SLEN_L` (20_memory.md R57). -/
theorem fetchInstr_congr {s s' : State} (hr : s'.rp = s.rp) (hl : s'.slenL = s.slenL)
    (hb : ∀ a, a < s.slenL.toNat → readStream s' a = readStream s a) :
    fetchInstr s' = fetchInstr s := by
  by_cases h2 : s.rp.toNat + 2 ≤ s.slenL.toNat
  · have hw : readStreamWord s' s'.rp.toNat = readStreamWord s s.rp.toNat := by
      rw [readStreamWord, readStreamWord, hr, hb _ (by omega), hb _ (by omega)]
    cases hf : fetchInstr s with
    | none =>
      rw [fetchInstr_eq_none] at hf ⊢
      rw [hw, hr, hl]; exact hf
    | some i =>
      obtain ⟨-, h3, -, -, hd⟩ := fetchInstr_eq_some hf
      rw [← readStreamRun_congr (s := s') (sizeOfInstr i) s.rp.toNat
        (fun b _ hb' => hb b (by omega))] at hd
      refine fetchInstr_of_decode (bytes := readStreamRun s' s.rp.toNat (sizeOfInstr i)) ?_ ?_ hd
      · rw [readStreamRun_length, hr, hl]; exact h3
      · rw [readStreamRun_length, hr]
  · rw [(fetchInstr_eq_none (s := s)).2 (.inl (by omega)),
      (fetchInstr_eq_none (s := s')).2 (.inl (by rw [hr, hl]; omega))]

/-- The host's waiting moves do not touch what the fetch reads. -/
@[simp] theorem fetchInstr_inbox (s : State) (rest : List HostMove) :
    fetchInstr { s with inbox := rest } = fetchInstr s := fetchInstr_congr rfl rfl (fun _ _ => rfl)

/-- Everything the decoder's turn can do: hold when not Running; raise one of the five decode errors,
or complete the fetched opcode. -/
theorem decoderStep_cases {s t : State} (h : decoderStep s = .next t) :
    (s.fsm ≠ .running ∧ t = s) ∨
      (s.fsm = .running ∧ ∃ code, code ≠ .none ∧ code ≠ .config ∧ t = decodeError code s) ∨
      (s.fsm = .running ∧ ∃ i, fetchInstr s = some i ∧ Completes i s t) := by
  unfold decoderStep at h
  split at h
  · next hs =>
    split at h
    · next i hi =>
      rcases exec_cases h with ⟨code, hc, rfl⟩ | h
      · exact .inr (.inl ⟨hs, code, hc.ne_none, hc.ne_config, rfl⟩)
      · exact .inr (.inr ⟨hs, i, hi, h⟩)
    · injection h with h
      exact .inr (.inl ⟨hs, .stream, by simp, by simp, h.symm⟩)
  · next hs => injection h with h; exact .inl ⟨hs, h.symm⟩

theorem decoderStep_next (s : State) : ∃ t, decoderStep s = .next t := by
  unfold decoderStep
  split
  · split
    · exact exec_next _ _
    · exact ⟨_, rfl⟩
  · exact ⟨_, rfl⟩

theorem step_of_empty {s : State} (h : s.inbox = []) : step s = decoderStep s := by simp [step, h]

theorem step_of_cons {s : State} {move : HostMove} {rest : List HostMove}
    (h : s.inbox = move :: rest) : step s = hostTurn move { s with inbox := rest } := by
  simp [step, h]

end Sys2Proof.Machine
end

