-- ==== Sys2Proof/Laws/Matcher.lean ====
section
/-! SUPPORT. What the parts of the Matcher compute: the longest agreeing prefix, the first best
candidate of a search, and the candidates a draw chooses from. -/

namespace Sys2Proof.Machine

/-! ### The longest agreeing prefix -/

theorem agreeRun_le (agree : Nat → Bool) (fuel : Nat) : ∀ i, agreeRun agree fuel i ≤ fuel := by
  induction fuel with
  | zero => intro i; simp [agreeRun]
  | succ fuel ih =>
    intro i
    unfold agreeRun
    split
    · exact Nat.succ_le_succ (ih (i + 1))
    · exact Nat.zero_le _

theorem agreeRun_agrees (agree : Nat → Bool) (fuel : Nat) : ∀ i j, j < agreeRun agree fuel i →
    agree (i + j) = true := by
  induction fuel with
  | zero => intro i j h; simp [agreeRun] at h
  | succ fuel ih =>
    intro i j h
    unfold agreeRun at h
    split at h
    · next ha =>
      cases j with
      | zero => exact ha
      | succ j =>
        have := ih (i + 1) j (by omega)
        rwa [show i + 1 + j = i + (j + 1) by omega] at this
    · omega

theorem agreeRun_stops (agree : Nat → Bool) (fuel : Nat) : ∀ i, agreeRun agree fuel i < fuel →
    agree (i + agreeRun agree fuel i) = false := by
  induction fuel with
  | zero => intro i h; omega
  | succ fuel ih =>
    intro i h
    unfold agreeRun at h ⊢
    split at h
    · next ha =>
      rw [if_pos ha]
      have := ih (i + 1) (by omega)
      rwa [show i + 1 + agreeRun agree fuel (i + 1) = i + (agreeRun agree fuel (i + 1) + 1) by omega]
        at this
    · next ha => rw [if_neg ha]; simpa using ha

theorem agreeRun_congr {f g : Nat → Bool} (fuel : Nat) : ∀ i, (∀ j, i ≤ j → j < i + fuel → f j = g j) →
    agreeRun f fuel i = agreeRun g fuel i := by
  induction fuel with
  | zero => intro i _; rfl
  | succ fuel ih =>
    intro i h
    unfold agreeRun
    rw [h i le_rfl (by omega), ih (i + 1) (fun j h1 h2 => h j (by omega) (by omega))]

/-! ### The search loop -/

/-- The search answers the best it was given or the first candidate of the greatest measure. -/
theorem searchLoop_spec (measure : Nat → Nat) (full : Nat) (fuel : Nat) : ∀ x (best : Nat × Nat),
    best.1 ≤ full → (∀ y, x ≤ y → y < x + fuel → measure y ≤ full) →
    let r := searchLoop measure full fuel x best
    (∀ y, x ≤ y → y < x + fuel → measure y ≤ r.1) ∧ r.1 ≤ full ∧
    ((r = best ∧ ∀ y, x ≤ y → y < x + fuel → measure y ≤ best.1) ∨
      (best.1 < r.1 ∧ x ≤ r.2 ∧ r.2 < x + fuel ∧ measure r.2 = r.1 ∧
        ∀ z, x ≤ z → z < r.2 → measure z < r.1)) := by
  induction fuel with
  | zero =>
    intro x best hb _
    exact ⟨fun y h1 h2 => by omega, hb, .inl ⟨rfl, fun y h1 h2 => by omega⟩⟩
  | succ fuel ih =>
    intro x best hb hm
    simp only [searchLoop]
    have hx := hm x le_rfl (by omega)
    by_cases hlt : best.1 < measure x
    · rw [if_pos hlt]
      by_cases hf : measure x = full
      · rw [if_pos hf]
        refine ⟨fun y h1 h2 => by have := hm y h1 h2; simp only; omega, hx, .inr ⟨hlt, le_rfl, ?_, rfl, ?_⟩⟩
        · simp
        · intro z h1 h2; simp only at h2; omega
      · rw [if_neg hf]
        obtain ⟨h1, h2, h3⟩ := ih (x + 1) (measure x, x) hx (fun y a b => hm y (by omega) (by omega))
        refine ⟨fun y a b => ?_, h2, .inr ?_⟩
        · by_cases hy : y = x
          · subst hy
            rcases h3 with ⟨h3, -⟩ | ⟨h3, -⟩
            · rw [h3]
            · exact le_of_lt h3
          · exact h1 y (by omega) (by omega)
        · rcases h3 with ⟨h3, -⟩ | ⟨h3, h4, h5, h6, h7⟩
          · rw [h3]; exact ⟨hlt, le_rfl, by simp, rfl, fun z a b => by simp only at b; omega⟩
          · refine ⟨lt_trans hlt h3, by omega, by omega, h6, fun z a b => ?_⟩
            by_cases hz : z = x
            · subst hz; exact h3
            · exact h7 z (by omega) b
    · rw [if_neg hlt]
      by_cases hf : best.1 = full
      · rw [if_pos hf]
        refine ⟨fun y a b => by have := hm y a b; omega, hb, .inl ⟨rfl, fun y a b => ?_⟩⟩
        have := hm y a b; omega
      · rw [if_neg hf]
        obtain ⟨h1, h2, h3⟩ := ih (x + 1) best hb (fun y a b => hm y (by omega) (by omega))
        refine ⟨fun y a b => ?_, h2, ?_⟩
        · by_cases hy : y = x
          · subst hy
            rcases h3 with ⟨h3, -⟩ | ⟨h3, -⟩
            · rw [h3]; omega
            · omega
          · exact h1 y (by omega) (by omega)
        · rcases h3 with ⟨h3, h4⟩ | ⟨h3, h4, h5, h6, h7⟩
          · refine .inl ⟨h3, fun y a b => ?_⟩
            by_cases hy : y = x
            · subst hy; omega
            · exact h4 y (by omega) (by omega)
          · refine .inr ⟨h3, by omega, by omega, h6, fun z a b => ?_⟩
            by_cases hz : z = x
            · subst hz; omega
            · exact h7 z (by omega) b

theorem searchLoop_congr {f g : Nat → Nat} (full fuel : Nat) : ∀ x best,
    (∀ y, x ≤ y → y < x + fuel → f y = g y) →
    searchLoop f full fuel x best = searchLoop g full fuel x best := by
  induction fuel with
  | zero => intro x best _; rfl
  | succ fuel ih =>
    intro x best h
    simp only [searchLoop, h x le_rfl (by omega),
      fun best => ih (x + 1) best (fun y a b => h y (by omega) (by omega))]

/-! ### The candidates of a draw -/

theorem mem_maximalCandidates {measure : Nat → Nat} {k : Nat} (fuel : Nat) : ∀ {x y : Nat},
    y ∈ maximalCandidates measure k fuel x ↔ x ≤ y ∧ y < x + fuel ∧ measure y = k := by
  induction fuel with
  | zero => intro x y; simp [maximalCandidates]; omega
  | succ fuel ih =>
    intro x y
    unfold maximalCandidates
    split
    · next h =>
      rw [List.mem_cons, ih]
      constructor
      · rintro (rfl | ⟨a, b, c⟩)
        · exact ⟨le_rfl, by omega, h⟩
        · exact ⟨by omega, by omega, c⟩
      · rintro ⟨a, b, c⟩
        by_cases hy : y = x
        · exact .inl hy
        · exact .inr ⟨by omega, by omega, c⟩
    · next h =>
      rw [ih]
      constructor
      · rintro ⟨a, b, c⟩; exact ⟨by omega, by omega, c⟩
      · rintro ⟨a, b, c⟩
        have hy : y ≠ x := by rintro rfl; exact h c
        exact ⟨by omega, by omega, c⟩

theorem maximalCandidates_congr {f g : Nat → Nat} (k fuel : Nat) : ∀ x,
    (∀ y, x ≤ y → y < x + fuel → f y = g y) →
    maximalCandidates f k fuel x = maximalCandidates g k fuel x := by
  induction fuel with
  | zero => intro x _; rfl
  | succ fuel ih =>
    intro x h
    simp only [maximalCandidates, h x le_rfl (by omega),
      ih (x + 1) (fun y a b => h y (by omega) (by omega))]

/-- A draw from a list that is not empty picks one of it. -/
theorem pickCandidate_mem (draw : Nat) {candidates : List Nat} (h : candidates ≠ []) :
    pickCandidate draw candidates ∈ candidates := by
  have hl : draw % candidates.length < candidates.length :=
    Nat.mod_lt _ (List.length_pos_iff.2 h)
  rw [pickCandidate, List.getD_eq_getElem _ _ hl]
  exact List.getElem_mem hl

/-! ### The conditions on a request as propositions -/

theorem requestValid_iff {q : MatchRequest} : requestValid q = true ↔
    q.c.toNat ≤ q.extent.toNat ∧ q.extent.toNat ≤ q.dict.length := by simp [requestValid]

theorem matchRequest_wf_iff {q : MatchRequest} : q.wf = true ↔
    q.src.length ≤ 65536 ∧ q.dict.length ≤ 65536 := by
  rw [MatchRequest.wf, Bool.and_eq_true, decide_eq_true_eq, decide_eq_true_eq]; rfl

/-! ### The lengths stay within the source -/

theorem patLen_le (q : MatchRequest) (p : Nat) : patLen q p ≤ q.src.length := agreeRun_le _ _ _

theorem subLen_le (q : MatchRequest) (s : Nat) : subLen q s ≤ min q.src.length (substringBound q s) :=
  agreeRun_le _ _ _

/-- The pattern search: the greatest `PatLen`, and the first period that has it. -/
theorem patternSearch_spec (q : MatchRequest) :
    (∀ p, 1 ≤ p → p < 1 + maxPeriod q → patLen q p ≤ (patternSearch q).1) ∧
    (patternSearch q).1 ≤ q.src.length ∧
    ((patternSearch q).1 = 0 ∨
      (1 ≤ (patternSearch q).2 ∧ (patternSearch q).2 < 1 + maxPeriod q ∧
        patLen q (patternSearch q).2 = (patternSearch q).1 ∧
        ∀ p, 1 ≤ p → p < (patternSearch q).2 → patLen q p < (patternSearch q).1)) := by
  obtain ⟨h1, h2, h3⟩ := searchLoop_spec (patLen q) q.src.length (maxPeriod q) 1 (0, 0)
    (Nat.zero_le _) (fun y _ _ => patLen_le q y)
  refine ⟨h1, h2, ?_⟩
  rcases h3 with ⟨h3, -⟩ | ⟨-, h3⟩
  · left; rw [patternSearch, h3]
  · right; exact h3

/-- The substring search: the greatest `SubLen`, and the first start that has it. -/
theorem substringSearch_spec (q : MatchRequest) :
    (∀ s, s < q.extent.toNat → subLen q s ≤ (substringSearch q).1) ∧
    (substringSearch q).1 ≤ q.src.length ∧
    ((substringSearch q).1 = 0 ∨
      ((substringSearch q).2 < q.extent.toNat ∧
        subLen q (substringSearch q).2 = (substringSearch q).1 ∧
        ∀ s, s < (substringSearch q).2 → subLen q s < (substringSearch q).1)) := by
  obtain ⟨h1, h2, h3⟩ := searchLoop_spec (subLen q) q.src.length q.extent.toNat 0 (0, 0)
    (Nat.zero_le _) (fun y _ _ => le_trans (subLen_le q y) (Nat.min_le_left _ _))
  refine ⟨fun s hs => h1 s (Nat.zero_le _) (by omega), h2, ?_⟩
  rcases h3 with ⟨h3, -⟩ | ⟨-, -, h4, h5, h6⟩
  · left; rw [substringSearch, h3]
  · right; exact ⟨by rw [Nat.zero_add] at h4; exact h4, h5, fun s hs => h6 s (Nat.zero_le _) hs⟩

end Sys2Proof.Machine
end

