-- ==== Sys2Proof/Laws/PerInstr.lean ====
section
/-! SUPPORT. Statements about every instruction as syntax, one lemma per constructor. `EncodedLength`:
an instruction takes as many bytes as its command word tells (30_encoding.md R82). -/

namespace Sys2Proof.Laws

/-- The encoding of a well-formed instruction is as long as its command word tells. -/
def EncodedLength.Statement (i : Instr) : Prop :=
  i.wf = true → (encode i).length = opcodeLength (commandWord i)

theorem EncodedLength.lit (payload : List Byte) : EncodedLength.Statement (.lit payload) := by
  intro h
  have hp := h
  simp only [Instr.wf, Instr.payloadFits, Bool.and_eq_true, decide_eq_true_eq] at hp
  rw [opcodeLength_lit (classify_commandWord _ h), (commandWord_lit _ h).2.2]
  have : Config.maxLen = 16384 := rfl
  simp [encode, leBytes, encodedPayload]
  omega

theorem EncodedLength.skip (count : BitVec 14) : EncodedLength.Statement (.skip count) := by
  intro h
  have hc := classify_commandWord _ h
  rw [opcodeLength_short (by simp [hc, classOf]) (by simp [hc, classOf])]
  rfl

theorem EncodedLength.dcopy (count : BitVec 14) (offset : Word) :
    EncodedLength.Statement (.dcopy count offset) := by
  intro h
  rw [opcodeLength_dcopy (classify_commandWord _ h)]
  rfl

theorem EncodedLength.bskip : EncodedLength.Statement .bskip := fun _ => by decide

theorem EncodedLength.eof : EncodedLength.Statement .eof := fun _ => by decide

theorem EncodedLength.eoa : EncodedLength.Statement .eoa := fun _ => by decide

theorem EncodedLength.reserved (count : BitVec 14) : EncodedLength.Statement (.reserved count) := by
  intro h
  have hc := classify_commandWord _ h
  rw [opcodeLength_short (by simp [hc, classOf]) (by simp [hc, classOf])]
  rfl

end Sys2Proof.Laws
end

