-- ==== Sys2Proof/Laws/Run.lean ====
section
/-! SUPPORT. Unfolding a run of the machine one step at a time, and the numbers an opcode leaves. -/

namespace Sys2Proof.Machine

/-- One step of a run of any machine. -/
theorem core_run_succ (M : Host.Core) (k : Nat) (s t : M.State) (h : M.step s = .next t) :
    Host.Core.run M (k + 1) s = Host.Core.run M k t := by simp [Host.Core.run, h]

theorem run_zero (s : State) : Host.Core.run Sys2Proof.core 0 s = .next s := rfl

theorem run_succ {k : Nat} {s u : State} (h : step s = .next u) :
    Host.Core.run Sys2Proof.core (k + 1) s = Host.Core.run Sys2Proof.core k u :=
  core_run_succ Sys2Proof.core k s u h

/-- A run of the decoder alone: the next state of each turn is where the rest of the run begins. -/
theorem run_succ_of_empty (k : Nat) {s : State} (h : s.inbox = []) :
    ∃ u, decoderStep s = .next u ∧ step s = .next u ∧ u.inbox = [] ∧
      Host.Core.run Sys2Proof.core (k + 1) s = Host.Core.run Sys2Proof.core k u := by
  obtain ⟨u, hu⟩ := decoderStep_next s
  have hs : step s = .next u := by rw [step_of_empty h, hu]
  refine ⟨u, hu, hs, ?_, run_succ hs⟩
  rcases decoderStep_cases hu with ⟨-, rfl⟩ | ⟨-, c, -, -, rfl⟩ | ⟨-, i, -, hc⟩
  · exact h
  · exact h
  · cases hc <;> exact h

/-- `CURSOR` after an opcode that stays in the frame: no wrap. -/
theorem advance_cursor_toNat {s : State} {n len : Nat}
    (h : s.cursor.toNat + n ≤ s.fsizeL.toNat) :
    (advance n len s).cursor.toNat = s.cursor.toNat + n := by
  have := s.fsizeL.isLt
  simp only [advance_cursor, BitVec.toNat_ofNat]
  omega

/-- `RP` after an opcode whose bytes are in the stream: no wrap. -/
theorem advance_rp_toNat {s : State} {n len : Nat} (h : s.rp.toNat + len ≤ s.slenL.toNat) :
    (advance n len s).rp.toNat = s.rp.toNat + len := by
  have := s.slenL.isLt
  simp only [advance_rp, BitVec.toNat_ofNat]
  omega

theorem drawBytes_length (n : Nat) : ∀ k, (drawBytes k n).length = n := by
  induction n with
  | zero => intro k; rfl
  | succ n ih => intro k; simp [drawBytes, ih]

end Sys2Proof.Machine
end

