-- ==== Sys2Proof/Tests/Slice0.lean ====
section
/-! SUPPORT. Tests of the model against the spec's own examples (the source of each is named), and for
every statement with hypotheses a witness that meets them, one for each clause, at a boundary value. -/

namespace Sys2Proof.Tests

open Sys2Proof Sys2Proof.Machine

/-- Running at offset `a`, where the stream holds `bytes` and ends after them, with the cursor at
`cursor` in `canvas`. -/
def demo (a : Nat) (bytes : List Byte) (cursor : Nat) (canvas : List Byte) : State :=
  { State.reset with
    fsm := .running
    cursor := BitVec.ofNat 17 cursor
    rp := BitVec.ofNat 33 a
    startL := BitVec.ofNat 32 a
    slenL := BitVec.ofNat 32 (a + bytes.length)
    fsizeL := BitVec.ofNat 17 canvas.length
    stream := storeRun [] a bytes
    canvas := storeRun [] 0 canvas }

/-- The same with `STRICT_L` set. -/
def strictDemo (a : Nat) (bytes : List Byte) (cursor : Nat) (canvas : List Byte) : State :=
  { demo a bytes cursor canvas with strictL := true }

/-- What a test looks at after a step: `STATE`, `CURSOR`, `RP`, the error code and the canvas bytes. -/
def look (s : State) : Option (FsmState × Nat × Nat × ErrorCode × List Byte) :=
  match step s with
  | .next t => some (t.fsm, t.cursor.toNat, t.rp.toNat, t.outErrCode, t.canvas.map Prod.snd)
  | .fault _ => none
  | .refused _ => none

/-! ## Ill-formed instructions are refused -/

theorem test_wf_lit_empty : (Instr.lit []).wf = false := by decide
theorem test_wf_lit_too_long : (Instr.lit (List.replicate 16385 0#8)).wf = false := by
  rw [Instr.wf, Instr.payloadFits, List.length_replicate]; decide
theorem test_wf_reserved_as_bskip : (Instr.reserved 0#14).wf = false := by decide
theorem test_wf_reserved_as_eof : (Instr.reserved 1#14).wf = false := by decide
theorem test_wf_reserved_as_eoa : (Instr.reserved 3#14).wf = false := by decide

/-! ## Words written out from the encodings of 30_encoding.md R83: kind bit, count field, tag bit -/

theorem test_decode_lit : decodeTableWord 32 0b10111011_10101010_0_00000000000001_1 =
    some (.lit [0xAA#8, 0xBB#8]) := by decide
theorem test_decode_skip : decodeTableWord 16 0b1_00000000000011_1 = some (.skip 3#14) := by decide
theorem test_decode_skip_longest : decodeTableWord 16 0b1_11111111111111_1 =
    some (.skip 0x3FFF#14) := by decide
theorem test_decode_dcopy : decodeTableWord 32 0b0010000000000001_1_00000000001110_0 =
    some (.dcopy 14#14 0x2001#16) := by decide
theorem test_decode_bskip : decodeTableWord 16 0b0_00000000000000_0 = some .bskip := by decide
theorem test_decode_eof : decodeTableWord 16 0b0_00000000000001_0 = some .eof := by decide
theorem test_decode_eoa : decodeTableWord 16 0b0_00000000000011_0 = some .eoa := by decide
theorem test_decode_reserved : decodeTableWord 16 0b0_00000000000010_0 =
    some (.reserved 2#14) := by decide
/-- The operand word of DCOPY is not in the opcode table's 16 bits: it is 0 there. -/
theorem test_decode_table_row_of_dcopy : decodeTableWord 16 0x8000 = some (.dcopy 0#14 0#16) := by
  decide
theorem test_decode_truncated_lit : decode [0x03#8, 0x00#8, 0xAA#8] = .error .truncatedPayload := by
  rfl

/-! ## One step of each instruction -/

/-- 40_data_opcodes.md R105. -/
theorem test_lit : look (demo 0 [0x03#8, 0x00#8, 0xAA#8, 0xBB#8] 0 [0, 0, 0, 0]) =
    some (.running, 2, 4, .none, [0xAA#8, 0xBB#8, 0, 0]) := by decide
/-- 95_test_vectors.md V87: E_BANK before E_DEST. -/
theorem test_lit_bank_before_dest : look (strictDemo 0xFFFD [0x03#8, 0x00#8, 0xAA#8, 0xBB#8] 0 []) =
    some (.error, 0, 0xFFFD, .bank, []) := by decide
/-- 40_data_opcodes.md R110. -/
theorem test_skip : look (demo 0 [0x07#8, 0x80#8] 0 [1, 2, 3, 4, 5, 6, 7, 8]) =
    some (.running, 4, 2, .none, [1, 2, 3, 4, 5, 6, 7, 8]) := by decide
/-- 95_test_vectors.md V22. -/
theorem test_skip_past_canvas : look (demo 0 [0x07#8, 0x80#8] 0 [0, 0, 0]) =
    some (.error, 0, 0, .dest, [0, 0, 0]) := by decide
/-- 95_test_vectors.md V31, its second step: period 3, where a block copy would give zeros. -/
theorem test_dcopy_overlap :
    look (demo 5 [0x0C#8, 0x80#8, 0x00#8, 0x20#8] 3 [1, 2, 3, 0, 0, 0, 0, 0, 0, 0]) =
    some (.running, 10, 9, .none, [1, 2, 3, 1, 2, 3, 1, 2, 3, 1]) := by decide
/-- 95_test_vectors.md V38: the destination fits, the source does not. -/
theorem test_dcopy_source_past_canvas : look (demo 0 [0x02#8, 0x80#8, 0x03#8, 0x20#8] 0 [0, 0, 0, 0]) =
    some (.error, 0, 0, .src, [0, 0, 0, 0]) := by decide
/-- 41_control_opcodes.md R132: the marker two bytes before a bank end. -/
theorem test_bskip_last_word_of_bank : look (demo 0xFFFE [0x00#8, 0x00#8] 0 [7]) =
    some (.running, 0, 0x10000, .none, [7]) := by decide
/-- 95_test_vectors.md V56. -/
theorem test_bskip_straddling : look (strictDemo 0xFFFF [0x00#8, 0x00#8] 0 [7]) =
    some (.error, 0, 0xFFFF, .bank, [7]) := by decide
/-- 95_test_vectors.md T2. -/
theorem test_eof : look (demo 0 [0x02#8, 0x00#8] 0 [1, 2, 3, 4]) =
    some (.endOfFrame, 0, 2, .none, [1, 2, 3, 4]) := by decide
/-- 95_test_vectors.md V62: `OUT_CONSUMED` counts from the start, and a straddling word is read
linearly. -/
theorem test_eof_consumed : (match step (demo 0xFFFF [0x02#8, 0x00#8] 0 [0, 0, 0, 0]) with
    | .next t => some t.outConsumed.toNat | .fault _ => none | .refused _ => none) = some 2 := by decide
/-- 95_test_vectors.md V61. -/
theorem test_eoa : look (demo 100 [0x06#8, 0x00#8] 0 [0, 0, 0, 0]) =
    some (.endOfAnimation, 0, 102, .none, [0, 0, 0, 0]) := by decide
/-- 95_test_vectors.md V71: 0x0008 is not BSKIP. -/
theorem test_reserved : look (demo 0 [0x08#8, 0x00#8] 0 [0, 0, 0, 0]) =
    some (.error, 0, 0, .reserved, [0, 0, 0, 0]) := by decide
/-- 95_test_vectors.md V75: E_RESERVED before E_BANK. -/
theorem test_reserved_before_bank : look (strictDemo 0xFFFF [0x04#8, 0x00#8] 0 [0, 0, 0, 0]) =
    some (.error, 0, 0xFFFF, .reserved, [0, 0, 0, 0]) := by decide
/-- 95_test_vectors.md V2: half a command word. -/
theorem test_fetch_truncated : look (demo 0 [0x02#8] 0 [0, 0, 0, 0]) =
    some (.error, 0, 0, .stream, [0, 0, 0, 0]) := by decide
/-- The word of an opcode-table row runs as the first instruction after reset (log 5). -/
theorem test_withFetchWord : look (State.reset.withFetchWord 16 0x0006) =
    some (.endOfAnimation, 0, 2, .none, []) := by decide

/-! ## The host and the Matcher -/

/-- 95_test_vectors.md V81. -/
theorem test_start_config_error :
    look { State.reset with cfgFrameSize := 65537, cfgStart := 0x40, inbox := [.start] } =
    some (.error, 0, 0x40, .config, []) := by decide
/-- 95_test_vectors.md M5: a match at the cursor. -/
theorem test_matcher_substring :
    findBestMatch ⟨[1, 2, 3, 4], [0, 0, 0, 0, 1, 2, 3, 4], 4, 8⟩ = ⟨.substring, 4, 4, 0⟩ := by decide
/-- 95_test_vectors.md M6: the bound at the cursor. -/
theorem test_matcher_bound :
    findBestMatch ⟨[5, 5, 5, 6], [0, 0, 5, 5, 5, 6, 0, 0], 3, 8⟩ = ⟨.pattern, 3, 2, 1⟩ := by decide
/-- 95_test_vectors.md M7: the other conforming answer. -/
theorem test_matcher_draw :
    findMatch .any 1 ⟨[1, 2, 1, 2], [1, 2, 1, 2], 4, 4⟩ = ⟨.pattern, 4, 0, 4⟩ := by decide
/-- 95_test_vectors.md P3. -/
theorem test_assemble : assemble 0xFFF8 [.lit 1 [0x55], .bankpad, .eof] =
    some [0x01#8, 0x00#8, 0x55#8, 0x00#8, 0x00#8, 0x00#8, 0x00#8, 0x00#8, 0x02#8, 0x00#8] := by decide
theorem test_reset_memory_wf : Memory.wf State.reset.stream ∧ Memory.wf State.reset.canvas := by decide

/-! ## Witnesses: every statement's hypotheses are met, clause by clause -/

theorem witness_EncodeThenDecodeGivesBack : (Instr.lit [0xAA#8]).wf = true ∧
    (Instr.reserved 2#14).wf = true ∧ (Instr.reserved 0x3FFF#14).wf = true ∧
    (Instr.skip 0x3FFF#14).wf = true := by decide

theorem witness_DecodeThenEncodeGivesBack :
    ∃ i rest, decode [0x00#8, 0x80#8, 0xFF#8, 0x1F#8, 0x02#8] = .ok (i, rest) := ⟨_, _, rfl⟩

theorem witness_LengthFromCommandWord :
    (∃ i rest, decode [0x01#8, 0x00#8, 0x5A#8] = .ok (i, rest)) ∧
    (∃ i rest, decode [0x00#8, 0x80#8, 0x00#8, 0x00#8] = .ok (i, rest)) ∧
    ∃ i rest, decode [0xFF#8, 0xFF#8] = .ok (i, rest) := ⟨⟨_, _, rfl⟩, ⟨_, _, rfl⟩, ⟨_, _, rfl⟩⟩

theorem witness_OperandsFromTheirWords : (0x1FFF#16).toNat < 0x2000 := by decide

theorem witness_StepRunsTheDecodedInstruction :
    let s := demo 0 [0x01#8, 0x00#8, 0x5A#8] 0 [0]
    s.fsm = .running ∧ s.rp.toNat + 3 ≤ s.slenL.toNat ∧
    readStreamRun s s.rp.toNat 3 = [0x01#8, 0x00#8, 0x5A#8] ∧
    decode [0x01#8, 0x00#8, 0x5A#8] = .ok (.lit [0x5A#8], []) ∧ s.inbox = [] ∧
    ({ s with inbox := [.wait] } : State).inbox = .wait :: [] := ⟨rfl, by decide, by decide, rfl, rfl, rfl⟩

theorem witness_StepRunsTheEncodedInstruction :
    let s := demo 0 [0x00#8, 0x80#8, 0x00#8, 0x20#8] 0 [0]
    let i := Instr.dcopy 0#14 0x2000#16
    s.inbox = [] ∧ s.fsm = .running ∧ i.wf = true ∧ s.rp.toNat + (encode i).length ≤ s.slenL.toNat ∧
    ∀ k (h : k < (encode i).length), readStream s (s.rp.toNat + k) = (encode i)[k] := by decide

theorem witness_TruncatedOpcodeRaisesStreamError :
    let s := demo 0 [0x02#8] 0 []
    let t := demo 0 [0x03#8, 0x00#8, 0xAA#8] 0 [0, 0]
    (s.inbox = [] ∧ s.fsm = .running ∧ s.slenL.toNat < s.rp.toNat + 2) ∧
    (t.inbox = [] ∧ t.fsm = .running ∧
      t.slenL.toNat < t.rp.toNat + opcodeLength (readStreamWord t t.rp.toNat)) := by decide

theorem witness_BlockHoldsWhenNotRunning :
    State.reset.fsm ≠ .running ∧ State.reset.inbox = [] ∧
    ({ State.reset with fsm := .error, inbox := [.wait] } : State).fsm ≠ .running ∧
    ({ State.reset with fsm := .error, inbox := [.wait] } : State).inbox = .wait :: [] := by decide

theorem witness_DecoderTurnAlwaysHasNextState : State.reset.inbox = [] := by decide

/-- The clauses of LIT: an exact fit in the stream and the canvas; a payload one byte short; a payload
across a bank; one canvas byte too many. -/
theorem witness_LitMeaning :
    let i := Instr.lit [0xAA#8, 0xBB#8]
    let fit := strictDemo 0xFFFC [0x03#8, 0x00#8, 0xAA#8, 0xBB#8] 1 [0, 0, 0]
    let short := demo 0 [0x03#8, 0x00#8, 0xAA#8] 0 [0, 0]
    let cross := strictDemo 0xFFFD [0x03#8, 0x00#8, 0xAA#8, 0xBB#8] 0 [0, 0]
    let beyond := demo 0 [0x03#8, 0x00#8, 0xAA#8, 0xBB#8] 0 [0]
    i.wf = true ∧
    (¬ fit.slenL.toNat < fit.rp.toNat + 2 + 2 ∧
      ¬ (fit.strictL = true ∧ fit.rp.toNat / 65536 ≠ (fit.rp.toNat + (2 + 2) - 1) / 65536) ∧
      ¬ fit.fsizeL.toNat < fit.cursor.toNat + 2) ∧
    short.slenL.toNat < short.rp.toNat + 2 + 2 ∧
    (¬ cross.slenL.toNat < cross.rp.toNat + 2 + 2 ∧
      (cross.strictL = true ∧ cross.rp.toNat / 65536 ≠ (cross.rp.toNat + (2 + 2) - 1) / 65536)) ∧
    (¬ beyond.slenL.toNat < beyond.rp.toNat + 2 + 2 ∧
      ¬ (beyond.strictL = true ∧ beyond.rp.toNat / 65536 ≠ (beyond.rp.toNat + (2 + 2) - 1) / 65536) ∧
      beyond.fsizeL.toNat < beyond.cursor.toNat + 2) := by decide

/-- The clauses of SKIP, with count 4 (field 3): an exact fit, a straddling word, one byte too many. -/
theorem witness_SkipMeaning :
    let fit := strictDemo 0xFFFE [0x07#8, 0x80#8] 0 [0, 0, 0, 0]
    let cross := strictDemo 0xFFFF [0x07#8, 0x80#8] 0 [0, 0, 0, 0]
    let beyond := demo 0 [0x07#8, 0x80#8] 1 [0, 0, 0, 0]
    (fit.rp.toNat + 2 ≤ fit.slenL.toNat ∧ ¬ (fit.strictL = true ∧ fit.rp.toNat % 65536 = 0xFFFF) ∧
      ¬ fit.fsizeL.toNat < fit.cursor.toNat + ((3#14).toNat + 1)) ∧
    (cross.rp.toNat + 2 ≤ cross.slenL.toNat ∧
      (cross.strictL = true ∧ cross.rp.toNat % 65536 = 0xFFFF)) ∧
    (beyond.rp.toNat + 2 ≤ beyond.slenL.toNat ∧ ¬ (beyond.strictL = true ∧ beyond.rp.toNat % 65536 = 0xFFFF) ∧
      beyond.fsizeL.toNat < beyond.cursor.toNat + ((3#14).toNat + 1)) := by decide

/-- The clauses of DCOPY, with count 2 (field 1): destination and source fit exactly; the offset word one
byte short; the offset word in the next bank; the destination over by one; the source over by one. -/
theorem witness_DcopyMeaning :
    let src := fun offset : Word => (offset.toNat + (65536 - 0x2000)) % 65536
    let crossing := fun s : State => s.strictL = true ∧ s.rp.toNat / 65536 ≠ (s.rp.toNat + 4 - 1) / 65536
    let fit := strictDemo 0xFFFC [0x02#8, 0x80#8, 0x02#8, 0x20#8] 2 [1, 2, 3, 4]
    let short := demo 0 [0x02#8, 0x80#8, 0x02#8] 2 [1, 2, 3, 4]
    let cross := strictDemo 0xFFFE [0x02#8, 0x80#8, 0x02#8, 0x20#8] 2 [1, 2, 3, 4]
    let beyond := demo 0 [0x02#8, 0x80#8, 0x02#8, 0x20#8] 3 [1, 2, 3, 4]
    let overread := demo 0 [0x02#8, 0x80#8, 0x03#8, 0x20#8] 2 [1, 2, 3, 4]
    (¬ fit.slenL.toNat < fit.rp.toNat + 4 ∧ ¬ crossing fit ∧
      ¬ fit.fsizeL.toNat < fit.cursor.toNat + ((1#14).toNat + 1) ∧
      ¬ fit.fsizeL.toNat < src 0x2002#16 + ((1#14).toNat + 1)) ∧
    short.slenL.toNat < short.rp.toNat + 4 ∧
    (¬ cross.slenL.toNat < cross.rp.toNat + 4 ∧ crossing cross) ∧
    (¬ beyond.slenL.toNat < beyond.rp.toNat + 4 ∧ ¬ crossing beyond ∧
      beyond.fsizeL.toNat < beyond.cursor.toNat + ((1#14).toNat + 1)) ∧
    (¬ overread.slenL.toNat < overread.rp.toNat + 4 ∧ ¬ crossing overread ∧
      ¬ overread.fsizeL.toNat < overread.cursor.toNat + ((1#14).toNat + 1) ∧
      overread.fsizeL.toNat < src 0x2003#16 + ((1#14).toNat + 1)) := by decide

theorem witness_DataStepsTakeTheirOperandsFromTheStream :
    let s := strictDemo 0xFFFC [0x03#8, 0x00#8, 0xAA#8, 0xBB#8] 1 [0, 0, 0]
    let t := strictDemo 0xFFFE [0x07#8, 0x80#8] 0 [0, 0, 0, 0]
    let u := strictDemo 0xFFFC [0x02#8, 0x80#8, 0x02#8, 0x20#8] 2 [1, 2, 3, 4]
    (s.inbox = [] ∧ s.fsm = .running ∧ classify (readStreamWord s s.rp.toNat) = .lit ∧
      (readStreamWord s s.rp.toNat).toNat / 2 % 2 ^ 14 + 1 = 2 ∧
      s.rp.toNat + 2 + 2 ≤ s.slenL.toNat ∧
      ¬ (s.strictL = true ∧ s.rp.toNat / 65536 ≠ (s.rp.toNat + (2 + 2) - 1) / 65536) ∧
      s.cursor.toNat + 2 ≤ s.fsizeL.toNat) ∧
    (t.inbox = [] ∧ t.fsm = .running ∧ classify (readStreamWord t t.rp.toNat) = .skip ∧
      (readStreamWord t t.rp.toNat).toNat / 2 % 2 ^ 14 + 1 = 4 ∧
      t.rp.toNat + 2 ≤ t.slenL.toNat ∧
      ¬ (t.strictL = true ∧ t.rp.toNat / 65536 ≠ (t.rp.toNat + 2 - 1) / 65536) ∧
      t.cursor.toNat + 4 ≤ t.fsizeL.toNat) ∧
    (u.inbox = [] ∧ u.fsm = .running ∧ classify (readStreamWord u u.rp.toNat) = .dcopy ∧
      (readStreamWord u u.rp.toNat).toNat / 2 % 2 ^ 14 + 1 = 2 ∧
      u.rp.toNat + 4 ≤ u.slenL.toNat ∧
      ¬ (u.strictL = true ∧ u.rp.toNat / 65536 ≠ (u.rp.toNat + 4 - 1) / 65536) ∧
      u.cursor.toNat + 2 ≤ u.fsizeL.toNat ∧
      ((readStreamWord u (u.rp.toNat + 2)).toNat + (65536 - 0x2000)) % 65536 + 2 ≤ u.fsizeL.toNat) := by
  decide

/-- Period 3 with an overlap, and a copy just short of the cursor. -/
theorem witness_DcopyOverlapLaw :
    let s := demo 5 [0x0C#8, 0x80#8, 0x00#8, 0x20#8] 3 [1, 2, 3, 0, 0, 0, 0, 0, 0, 0]
    let u := demo 0 [0x02#8, 0x80#8, 0x00#8, 0x20#8] 2 [1, 2, 3, 4]
    (s.fsm = .running ∧ (∃ t, exec (.dcopy 6#14 0x2000#16) s = .next t ∧ t.fsm = .running) ∧
      srcOf 0x2000#16 < s.cursor.toNat) ∧
    (u.fsm = .running ∧ (∃ t, exec (.dcopy 1#14 0x2000#16) u = .next t ∧ t.fsm = .running) ∧
      srcOf 0x2000#16 < u.cursor.toNat ∧
      (1#14).toNat + 1 ≤ u.cursor.toNat - srcOf 0x2000#16) :=
  ⟨⟨rfl, ⟨_, rfl, by decide⟩, by decide⟩, rfl, ⟨_, rfl, by decide⟩, by decide, by decide⟩

/-- Behind without overlap, ahead by one, at the cursor, one behind. -/
theorem witness_DcopyCornerCases :
    let s := demo 0 [0x02#8, 0x80#8, 0x00#8, 0x20#8] 2 [5, 6, 7, 8]
    (s.fsm = .running ∧ (∃ t, exec (.dcopy 1#14 0x2000#16) s = .next t ∧ t.fsm = .running) ∧
      srcOf 0x2000#16 + ((1#14).toNat + 1) ≤ s.cursor.toNat) ∧
    ((∃ t, exec (.dcopy 0#14 0x2003#16) s = .next t ∧ t.fsm = .running) ∧
      s.cursor.toNat < srcOf 0x2003#16) ∧
    ((∃ t, exec (.dcopy 1#14 0x2002#16) s = .next t ∧ t.fsm = .running) ∧
      srcOf 0x2002#16 = s.cursor.toNat) ∧
    ((∃ t, exec (.dcopy 1#14 0x2001#16) s = .next t ∧ t.fsm = .running) ∧
      srcOf 0x2001#16 + 1 = s.cursor.toNat) :=
  ⟨⟨rfl, ⟨_, rfl, by decide⟩, by decide⟩, ⟨⟨_, rfl, by decide⟩, by decide⟩,
    ⟨⟨_, rfl, by decide⟩, by decide⟩, ⟨_, rfl, by decide⟩, by decide⟩

/-- The control words: the last word of a bank that does not straddle, and the one that does. They meet
the hypotheses of BskipMeaning, EofMeaning and EoaMeaning alike. -/
theorem witness_control_meanings :
    let fit := strictDemo 0xFFFE [0x00#8, 0x00#8] 0 []
    let cross := strictDemo 0xFFFF [0x00#8, 0x00#8] 0 []
    (fit.rp.toNat + 2 ≤ fit.slenL.toNat ∧ fit.startL.toNat ≤ fit.rp.toNat ∧
      ¬ (fit.strictL = true ∧ fit.rp.toNat % 65536 = 0xFFFF)) ∧
    (cross.rp.toNat + 2 ≤ cross.slenL.toNat ∧ cross.startL.toNat ≤ cross.rp.toNat ∧
      (cross.strictL = true ∧ cross.rp.toNat % 65536 = 0xFFFF)) := by decide

theorem witness_BytesConsumedEndPastTheTerminator :
    let s := demo 100 [0x02#8, 0x00#8] 0 []
    s.rp.toNat + 2 ≤ s.slenL.toNat ∧ s.startL.toNat ≤ s.rp.toNat ∧
    (∃ t, exec .eof s = .next t ∧ t.fsm ≠ .error) ∧ ∃ t, exec .eoa s = .next t ∧ t.fsm ≠ .error :=
  ⟨by decide, by decide, ⟨_, rfl, by decide⟩, ⟨_, rfl, by decide⟩⟩

theorem witness_ReservedMeaning :
    ((0x0004#16).getLsbD 15 = false ∧ (0x0004#16).getLsbD 0 = false ∧ (0x0004#16).toNat / 2 ≠ 0 ∧
      (0x0004#16).toNat / 2 ≠ 1 ∧ (0x0004#16).toNat / 2 ≠ 3) ∧
    (Instr.reserved 0x3FFF#14).wf = true := by decide

/-- One state for each of the seven clauses. -/
theorem witness_ErrorsInPriorityOrder :
    let noWord := fun s : State => s.slenL.toNat < s.rp.toNat + 2
    let isReserved := fun s : State => classify (readStreamWord s s.rp.toNat) = .reserved
    let len := fun s : State => opcodeLength (readStreamWord s s.rp.toNat)
    let short := fun s : State => s.slenL.toNat < s.rp.toNat + len s
    let crossing := fun s : State => s.strictL = true ∧
      s.rp.toNat / 65536 ≠ (s.rp.toNat + len s - 1) / 65536
    let n := fun s : State => (readStreamWord s s.rp.toNat).toNat / 2 % 2 ^ 14 + 1
    let cls := fun s : State => classify (readStreamWord s s.rp.toNat)
    let overrun := fun s : State => (cls s = .lit ∨ cls s = .skip ∨ cls s = .dcopy) ∧
      s.fsizeL.toNat < s.cursor.toNat + n s
    let overread := fun s : State => cls s = .dcopy ∧
      s.fsizeL.toNat < srcOf (readStreamWord s (s.rp.toNat + 2)) + n s
    let s1 := demo 0 [0x02#8] 0 []
    let s2 := demo 0 [0x04#8, 0x00#8] 0 []
    let s3 := demo 0 [0x00#8, 0x80#8, 0x00#8] 0 []
    let s4 := strictDemo 0xFFFE [0x00#8, 0x80#8, 0x00#8, 0x20#8] 0 []
    let s5 := demo 0 [0x00#8, 0x80#8, 0x04#8, 0x20#8] 4 [0, 0, 0, 0]
    let s6 := demo 0 [0x00#8, 0x80#8, 0x04#8, 0x20#8] 3 [0, 0, 0, 0]
    let s7 := demo 0 [0x00#8, 0x80#8, 0x03#8, 0x20#8] 3 [0, 0, 0, 0]
    noWord s1 ∧ (¬ noWord s2 ∧ isReserved s2) ∧ (¬ noWord s3 ∧ ¬ isReserved s3 ∧ short s3) ∧
    (¬ noWord s4 ∧ ¬ isReserved s4 ∧ ¬ short s4 ∧ crossing s4) ∧
    (¬ noWord s5 ∧ ¬ isReserved s5 ∧ ¬ short s5 ∧ ¬ crossing s5 ∧ overrun s5) ∧
    (¬ noWord s6 ∧ ¬ isReserved s6 ∧ ¬ short s6 ∧ ¬ crossing s6 ∧ ¬ overrun s6 ∧ overread s6) ∧
    (¬ noWord s7 ∧ ¬ isReserved s7 ∧ ¬ short s7 ∧ ¬ crossing s7 ∧ ¬ overrun s7 ∧ ¬ overread s7) := by
  decide

theorem witness_EnteringErrorChangesNothingElse :
    let s := demo 0 [0x04#8, 0x00#8] 0 []
    s.inbox = [] ∧ s.fsm = .running ∧ ∃ t, step s = .next t ∧ t.fsm = .error :=
  ⟨rfl, rfl, ⟨_, rfl, by decide⟩⟩

theorem witness_BankErrorExactlyWhenStrictAndCrossing :
    let s := strictDemo 0xFFFF [0x02#8, 0x00#8] 0 []
    Instr.eof.wf = true ∧ s.fsm = .running ∧ s.rp.toNat + sizeOfInstr .eof ≤ s.slenL.toNat ∧
    classOf .eof ≠ .reserved := by decide

/-- An opcode that completes and one that raises an error: the hypotheses of
OpcodesLeaveStreamAndConfiguration, WritesOnlyItsFootprint, OnlyDataOpcodesMoveTheCursor and
HowEachOpcodeMovesRp, and their clauses on errors. -/
theorem witness_exec_rules :
    let s := demo 0 [0x01#8, 0x00#8, 0x5A#8] 0 [0]
    s.fsm = .running ∧ s.rp.toNat + 2 ≤ s.slenL.toNat ∧
    (∃ t, exec (.lit [0x5A#8]) s = .next t ∧ t.fsm = .running) ∧
    ∃ t, exec (.reserved 2#14) s = .next t ∧ t.fsm = .error :=
  ⟨rfl, by decide, ⟨_, rfl, rfl⟩, ⟨_, rfl, rfl⟩⟩

/-- The hypotheses of EachCanvasIndexWrittenAtMostOnce, EveryRunTerminates and
RunIgnoresConfigurationInputs. -/
theorem witness_runs :
    let s := demo 0 [0x02#8, 0x00#8] 0 [7]
    s.inbox = [] ∧ s.fsm = .running ∧ ∃ t, Host.Core.run Sys2Proof.core 1 s = .next t :=
  ⟨rfl, rfl, ⟨_, rfl⟩⟩

theorem witness_EveryStepKeepsTheInvariant :
    let s := demo 0 [0x02#8, 0x00#8] 1 [7, 8]
    Inv s ∧ ∃ t, step s = .next t :=
  ⟨by constructor <;> decide, ⟨_, rfl⟩⟩

/-- A host move of each kind from Idle, and a start while Running. -/
theorem witness_StateTransitionsAreThoseOfTheTable :
    (∀ move ∈ [HostMove.wait, .writeFrameSize 4, .writeStreamLen 2, .writeStart 0,
        .writeStrictBanks true, .loadStream 0 2, .loadCanvas 65535 7, .start, .readOutputs, .readCanvas 0,
        .readStream 0, .reset, .resetMidOpcode],
      ∃ t, step { State.reset with inbox := [move] } = .next t) ∧
    ∃ t, step { demo 0 [0x02#8, 0x00#8] 0 [7] with inbox := [.start] } = .next t := by
  refine ⟨fun move h => ?_, ⟨_, rfl⟩⟩
  simp only [List.mem_cons, List.not_mem_nil, or_false] at h
  rcases h with rfl | rfl | rfl | rfl | rfl | rfl | rfl | rfl | rfl | rfl | rfl | rfl | rfl <;>
    exact ⟨_, rfl⟩

theorem witness_OneDecodeIsStartThenSteps :
    State.reset.inbox = [] ∧ State.reset.fsm ≠ .running := by decide

/-- A stream and a canvas that differ from the state's only at their bounds. -/
theorem witness_DecoderReadsOnlyWithinBounds :
    let s := demo 0 [0x02#8, 0x00#8] 0 [7]
    let stream : Memory := [(0, 0x02#8), (1, 0x00#8), (2, 0xFF#8)]
    let canvas : Memory := [(0, 7#8), (1, 0xFF#8)]
    s.inbox = [] ∧ (∀ a, a < s.slenL.toNat → streamByte stream a = readStream s a) ∧
    (∀ j, j < s.fsizeL.toNat → canvasByte canvas j = readCanvas s j) ∧ ∃ t, step s = .next t :=
  ⟨rfl, by decide, by decide, ⟨_, rfl⟩⟩

/-- Padding at the last two offsets of a bank. -/
theorem witness_ZeroPaddingResumesAtNextBank :
    let s := demo 0xFFFE [0x00#8, 0x00#8] 0 []
    let t := demo 0xFFFF [0x00#8, 0x01#8] 0 []
    (s.inbox = [] ∧ s.fsm = .running ∧ s.rp.toNat + 2 ≤ s.slenL.toNat ∧
      readStream s s.rp.toNat = 0#8 ∧ s.rp.toNat % 65536 ≤ 0xFFFE ∧
      readStream s (s.rp.toNat + 1) = 0#8) ∧
    (t.inbox = [] ∧ t.fsm = .running ∧ t.rp.toNat + 2 ≤ t.slenL.toNat ∧
      readStream t t.rp.toNat = 0#8 ∧ t.rp.toNat % 65536 = 0xFFFF) := by decide

/-- Starts at both sides of the size limit, and one while Running. -/
theorem witness_StartCommandMeaning :
    let busy : State := { demo 0 [] 0 [] with inbox := [.start] }
    let big : State := { State.reset with cfgFrameSize := 65537, inbox := [.start] }
    let full : State := { State.reset with cfgFrameSize := 65536, inbox := [.start] }
    (busy.inbox = .start :: [] ∧ busy.fsm = .running) ∧
    (big.inbox = .start :: [] ∧ big.fsm ≠ .running ∧ 65536 < big.cfgFrameSize.toNat) ∧
    (full.inbox = .start :: [] ∧ full.fsm ≠ .running ∧ full.cfgFrameSize.toNat ≤ 65536) := by decide

theorem witness_ResetSetsEveryRegister :
    ({ demo 0 [] 0 [] with inbox := [.reset] } : State).inbox = .reset :: [] := by decide

/-- A reset inside a LIT that would complete, inside one that would not, in a truncated opcode, and when
the block is Idle. -/
theorem witness_ResetInsideAnOpcodeTouchesOnlyItsBytes :
    let s : State := { demo 0 [0x01#8, 0x00#8, 0x5A#8] 0 [0] with inbox := [.resetMidOpcode] }
    let bad : State := { demo 0 [0x01#8, 0x00#8, 0x5A#8] 1 [0] with inbox := [.resetMidOpcode] }
    (s.inbox = .resetMidOpcode :: [] ∧ fetchInstr s = some (.lit [0x5A#8])) ∧
    (fetchInstr bad = some (.lit [0x5A#8]) ∧
      ∃ code, exec (.lit [0x5A#8]) bad =
        .next { bad with outErrCode := code, outErrOffset := bad.rp, fsm := .error }) ∧
    fetchInstr (demo 0 [0x02#8] 0 []) = none ∧ State.reset.fsm ≠ .running :=
  ⟨⟨rfl, by decide⟩, ⟨by decide, ⟨.dest, rfl⟩⟩, by decide, by decide⟩

/-- The hypotheses of ConfigurationWritesHold and StatusOutputsMirrorTheRegisters. -/
theorem witness_host_moves :
    ({ State.reset with inbox := [.writeFrameSize 0x1FFFF] } : State).inbox = .writeFrameSize 0x1FFFF :: [] ∧
    ({ State.reset with inbox := [.writeStreamLen 1] } : State).inbox = .writeStreamLen 1 :: [] ∧
    ({ State.reset with inbox := [.writeStart 1] } : State).inbox = .writeStart 1 :: [] ∧
    ({ State.reset with inbox := [.writeStrictBanks true] } : State).inbox = .writeStrictBanks true :: [] ∧
    ({ State.reset with inbox := [.readOutputs] } : State).inbox = .readOutputs :: [] := by decide

/-- The last address of each space, not Running (HostLoadsReadBack); and the four refused moves while
Running (HostMemoryAccessWhileRunningIsRefused). -/
theorem witness_host_memory_moves :
    let s : State := { State.reset with inbox := [.loadStream (2 ^ 32 - 2) 7#8] }
    let t : State := { State.reset with inbox := [.loadCanvas 65535 7#8] }
    (s.fsm ≠ .running ∧ s.inbox = .loadStream (2 ^ 32 - 2) 7#8 :: [] ∧ 2 ^ 32 - 2 < 2 ^ 32 - 1) ∧
    (t.fsm ≠ .running ∧ t.inbox = .loadCanvas 65535 7#8 :: [] ∧ 65535 < 65536) ∧
    ∀ move ∈ [HostMove.loadStream 0 7#8, .loadCanvas 0 7#8, .readCanvas 0, .readStream 0],
      ({ demo 0 [] 0 [] with inbox := [move] } : State).fsm = .running ∧
      ({ demo 0 [] 0 [] with inbox := [move] } : State).inbox = move :: [] := by decide

/-- A PATTERN and a SUBSTRING result, each with the DCOPY that it stands for and a canvas that agrees with
the dictionary (45_matcher.md R160, third example, and 95_test_vectors.md M5). -/
theorem witness_MatcherResultsDecodeToTheSource :
    let q : MatchRequest := ⟨[1, 2, 3, 1, 2, 3, 1], [1, 2, 3, 0, 0, 0, 0, 0, 0, 0], 3, 3⟩
    let s := demo 5 [0x0C#8, 0x80#8, 0x00#8, 0x20#8] 3 [1, 2, 3, 0, 0, 0, 0, 0, 0, 0]
    let q' : MatchRequest := ⟨[1, 2, 3, 4], [0, 0, 0, 0, 1, 2, 3, 4], 4, 8⟩
    let s' := demo 0 [0x06#8, 0x80#8, 0x04#8, 0x20#8] 4 [0, 0, 0, 0, 1, 2, 3, 4]
    (q.wf = true ∧ requestValid q = true ∧ findMatch .reference 0 q = ⟨.pattern, 7, 0, 3⟩ ∧
      (6#14).toNat + 1 = 7 ∧ srcOf 0x2000#16 = 0 ∧ s.cursor = q.c ∧ s.fsm = .running ∧
      (∀ j, j < 3 → readCanvas s j = dictByte q j) ∧
      ∃ t, exec (.dcopy 6#14 0x2000#16) s = .next t ∧ t.fsm = .running) ∧
    (q'.wf = true ∧ requestValid q' = true ∧ findMatch .reference 0 q' = ⟨.substring, 4, 4, 0⟩ ∧
      (3#14).toNat + 1 = 4 ∧ srcOf 0x2004#16 = 4 ∧ s'.cursor = q'.c ∧ s'.fsm = .running ∧
      (∀ j, j < 4 → readCanvas s' (4 + j) = dictByte q' (4 + j)) ∧
      ∃ t, exec (.dcopy 3#14 0x2004#16) s' = .next t ∧ t.fsm = .running) :=
  ⟨⟨by decide, by decide, by decide, by decide, by decide, by decide, rfl, by decide, ⟨_, rfl, rfl⟩⟩,
    by decide, by decide, by decide, by decide, by decide, by decide, rfl, by decide, ⟨_, rfl, rfl⟩⟩

/-- A PATTERN, a SUBSTRING, a NONE and the two ways to be INVALID; an empty source, a cursor at 0 and an
empty extent (95_test_vectors.md M1 to M4 and M8): the hypotheses of ReferenceMatcherConforms,
EveryDrawConforms, ReferenceMatcherTakesTheFirst, InvalidAndCancelledRequests and MatcherCornerCases. -/
theorem witness_matcher_requests :
    let pattern : MatchRequest := ⟨[7, 7], [7, 7, 0, 0], 2, 4⟩
    let substring : MatchRequest := ⟨[3], [3, 0, 0, 0], 0, 4⟩
    let empty : MatchRequest := ⟨[], [1, 2], 2, 2⟩
    let blind : MatchRequest := ⟨[1], [1, 2], 0, 0⟩
    let far : MatchRequest := ⟨[1], [1, 2, 3, 4], 3, 2⟩
    let long : MatchRequest := ⟨[1], [1, 2], 1, 3⟩
    (pattern.wf = true ∧ requestValid pattern = true ∧ (findBestMatch pattern).kind = .pattern) ∧
    (substring.wf = true ∧ requestValid substring = true ∧
      (findBestMatch substring).kind = .substring ∧ substring.c = 0) ∧
    (empty.wf = true ∧ requestValid empty = true ∧ empty.src = []) ∧
    (blind.wf = true ∧ requestValid blind = true ∧ blind.extent = 0) ∧
    far.extent.toNat < far.c.toNat ∧ long.dict.length < long.extent.toNat := by decide

/-- A dictionary that differs from the request's only at its extent. -/
theorem witness_MatcherReadsOnlyTheVisibleDictionary :
    let q : MatchRequest := ⟨[1], [1, 2, 3], 1, 2⟩
    requestValid q = true ∧ q.extent.toNat ≤ [1#8, 2#8, 9#8].length ∧
    ∀ j, j < q.extent.toNat → [1#8, 2#8, 9#8].getD j 0 = dictByte q j := by decide

theorem witness_AssembledLinesDecode : (1 ≤ 16384 ∧ 16384 ≤ 16384 ∧ 65535 < 65536 ∧
    (List.replicate 16384 0#8).length = 16384) ∧ 1 ≤ 1 ∧ [0#8].length = 1 :=
  ⟨⟨by decide, by decide, by decide, List.length_replicate⟩, by decide, rfl⟩

theorem witness_DcopysMakeTheTransfersOfOneCopy : 25536 + 40000 ≤ 65536 := by decide

theorem witness_HeaderFieldsAtTheirOffsets :
    let h : Header := ⟨22, 0x8001, 160, 200, 0, 1⟩
    h.fileLength < 2 ^ 32 ∧ h.version < 2 ^ 16 ∧ h.widthBytes < 2 ^ 16 ∧ h.height < 2 ^ 16 ∧
    h.frameSize < 2 ^ 16 ∧ h.frameCount < 2 ^ 32 ∧ 20 + [0#8, 0#8].length = h.fileLength ∧
    h.frameSize = 0 ∧ (⟨22, 1, 160, 200, 65535, 1⟩ : Header).frameSize ≠ 0 := by decide

end Sys2Proof.Tests
end

section
/-! PROOFS of the statements about 10_state.md: how an opcode moves `RP`, the transitions of `STATE`,
and what a reset sets. -/

namespace Sys2Proof.Machine

/-! ### The registers after each move -/

/-- `STATE` after a start command (10_state.md R23). -/
theorem startCommand_fsm (s : State) : (startCommand s).fsm =
    if s.fsm = .running then .running
    else if 65536 < s.cfgFrameSize.toNat then .error else .running := by
  unfold startCommand
  split
  · assumption
  · rw [Config.maxFrameSize]
    split <;> rfl

/-- A host access that has a next state has the one the access is for. -/
theorem hostAccess_next {present : Bool} {missing : Fault} {s after t : State}
    (h : hostAccess present missing s after = .next t) : t = after := by
  unfold hostAccess at h
  split at h
  · cases h
  · split at h
    · injection h with h
      exact h.symm
    · cases h

/-- `STATE` after the decoder's turn, with the cause of each transition (10_state.md R23). -/
theorem decoderStep_fsm {s t : State} (h : decoderStep s = .next t) :
    (s.fsm ≠ .running ∧ t.fsm = s.fsm) ∨
      (s.fsm = .running ∧
        ((t.fsm = .running ∧ ∃ i, fetchInstr s = some i ∧
            (classOf i = .lit ∨ classOf i = .skip ∨ classOf i = .dcopy ∨ classOf i = .bskip)) ∨
          (t.fsm = .endOfFrame ∧ fetchInstr s = some .eof) ∨
          (t.fsm = .endOfAnimation ∧ fetchInstr s = some .eoa) ∨
          (t.fsm = .error ∧ t.outErrCode ≠ .none ∧ t.outErrCode ≠ .config))) := by
  rcases decoderStep_cases h with ⟨hs, rfl⟩ | ⟨hs, code, hnone, hconfig, rfl⟩ | ⟨hs, i, hi, hc⟩
  · exact .inl ⟨hs, rfl⟩
  · exact .inr ⟨hs, .inr (.inr (.inr ⟨rfl, hnone, hconfig⟩))⟩
  · refine .inr ⟨hs, ?_⟩
    cases hc with
    | lit => exact .inl ⟨hs, _, hi, .inl rfl⟩
    | skip => exact .inl ⟨hs, _, hi, .inr (.inl rfl)⟩
    | dcopy => exact .inl ⟨hs, _, hi, .inr (.inr (.inl rfl))⟩
    | bskip => exact .inl ⟨hs, _, hi, .inr (.inr (.inr rfl))⟩
    | eof => exact .inr (.inl ⟨rfl, hi⟩)
    | eoa => exact .inr (.inr (.inl ⟨rfl, hi⟩))

/-- An opcode that completes moves `RP` past its own bytes, BSKIP excepted (10_state.md R27). -/
theorem Completes.rp_toNat {i : Instr} {s t : State} (h : Completes i s t)
    (hw : s.rp.toNat + 2 ≤ s.slenL.toNat) (hi : i ≠ .bskip) :
    t.rp.toNat = s.rp.toNat + sizeOfInstr i := by
  cases h with
  | lit inStream => exact advance_rp_toNat inStream
  | skip => exact advance_rp_toNat hw
  | dcopy inStream => exact advance_rp_toNat inStream
  | bskip => exact absurd rfl hi
  -- EOF and EOA move `RP` as `advance` with their two bytes does.
  | eof => exact advance_rp_toNat (n := 0) hw
  | eoa => exact advance_rp_toNat (n := 0) hw

/-- BSKIP moves `RP` to the start of the next bank (10_state.md R27). -/
theorem Completes.bskip_rp_toNat {s t : State} (h : Completes .bskip s t)
    (hw : s.rp.toNat + 2 ≤ s.slenL.toNat) :
    t.rp.toNat = (s.rp.toNat / 65536 + 1) * 65536 := by
  cases h
  exact nextBank_toNat (by have := s.slenL.isLt; omega)

end Sys2Proof.Machine

namespace Sys2Proof.Proofs
open Sys2Proof Sys2Proof.Machine

/-- Settles O31: an error leaves `RP`, and a completed opcode moves it past its bytes or to the next bank. -/
theorem howEachOpcodeMovesRp : Obligations.HowEachOpcodeMovesRp := by
  intro i s t hs hw h
  refine ⟨fun ht => ?_, fun ht => ?_⟩
  · rcases exec_cases h with ⟨code, -, rfl⟩ | hc
    · rfl
    · exact absurd ht (hc.fsm_ne_error hs)
  · have hc := completes_of_exec h ht
    cases i with
    | lit payload =>
      have hrp : t.rp.toNat = s.rp.toNat + (2 + payload.length) := hc.rp_toNat hw nofun
      dsimp only; omega
    | dcopy =>
      have hrp : t.rp.toNat = s.rp.toNat + 4 := hc.rp_toNat hw nofun
      dsimp only; omega
    | skip | eof | eoa =>
      have hrp : t.rp.toNat = s.rp.toNat + 2 := hc.rp_toNat hw nofun
      dsimp only; omega
    | bskip =>
      have hrp := hc.bskip_rp_toNat hw
      dsimp only; omega
    | reserved => cases hc

/-- Settles O32: the decoder's turn by the cases of `decoderStep_fsm`, the host's moves one by one. -/
theorem stateTransitionsAreThoseOfTheTable : Obligations.StateTransitionsAreThoseOfTheTable := by
  intro s t h
  cases hin : s.inbox with
  | nil => rw [step_of_empty hin] at h; exact decoderStep_fsm h
  | cons move rest =>
    rw [step_of_cons hin] at h
    cases move with
    | wait => simpa only [fetchInstr_inbox] using decoderStep_fsm (s := { s with inbox := rest }) h
    | start =>
      injection h with h
      have hfsm := startCommand_fsm { s with inbox := rest }
      rw [h] at hfsm
      dsimp only at hfsm ⊢
      split_ifs at hfsm ⊢ <;> exact hfsm
    | loadStream | loadCanvas | readCanvas | readStream =>
      obtain rfl := hostAccess_next h
      rfl
    | writeFrameSize | writeStreamLen | writeStart | writeStrictBanks | readOutputs
    | reset | resetMidOpcode =>
      injection h with h
      subst h
      rfl

/-- Settles O41: the step is `applyReset`, which takes its registers from `State.reset`. -/
theorem resetSetsEveryRegister : Obligations.ResetSetsEveryRegister := by
  intro s rest hin
  refine ⟨applyReset { s with inbox := rest }, step_of_cons hin, ?_⟩
  simp [State.reset]

end Sys2Proof.Proofs
end

section
/-! PROOFS of the statements about 20_memory.md: a word of two zero bytes is BSKIP and takes the decoder to
the next bank. -/

namespace Sys2Proof.Machine

/-- A word of the stream is zero exactly where both of its bytes are (20_memory.md R53). -/
theorem readStreamWord_eq_zero {s : State} {a : Nat} :
    readStreamWord s a = 0#16 ↔ readStream s a = 0#8 ∧ readStream s (a + 1) = 0#8 := by
  simp only [readStreamWord, ← BitVec.toNat_inj, leWord_toNat, BitVec.toNat_ofNat]
  omega

/-- Two zero bytes of the stream at `RP` are fetched as BSKIP (30_encoding.md R83). -/
theorem fetchInstr_of_zeros {s : State} (hw : s.rp.toNat + 2 ≤ s.slenL.toNat)
    (h0 : readStream s s.rp.toNat = 0#8) (h1 : readStream s (s.rp.toNat + 1) = 0#8) :
    fetchInstr s = some .bskip := by
  refine fetchInstr_of_decode (bytes := [0#8, 0#8]) hw ?_ rfl
  simp [readStreamRun, h0, h1]

/-- The turn of a Running block whose checks for the fetched opcode all pass completes that opcode. -/
theorem decoderStep_of_completes {s t : State} {i : Instr} (hs : s.fsm = .running)
    (hi : fetchInstr s = some i) (hc : Completes i s t) : decoderStep s = .next t := by
  simp only [decoderStep, hs, if_true, hi]
  exact exec_of_completes hc

/-- A two-byte opcode that begins before the last offset of a bank passes `BankCheck`, whatever the option
(40_data_opcodes.md R108). -/
theorem crossesBank_two_of_le {s : State} (h : s.rp.toNat % 65536 ≤ 0xFFFE) :
    crossesBank s 2 = false := by
  rw [crossesBank_false, straddles_iff]
  omega

end Sys2Proof.Machine

namespace Sys2Proof.Proofs
open Sys2Proof Sys2Proof.Machine

/-- Settles O39: before the last offset of a bank the zero word completes as BSKIP; at the last offset the
word is BSKIP exactly when it is zero, and its first byte is. -/
theorem zeroPaddingResumesAtNextBank : Obligations.ZeroPaddingResumesAtNextBank := by
  intro s hin hs hw h0
  refine ⟨fun hoff h1 => ?_, fun _ => ?_⟩
  · have hc := Completes.bskip (crossesBank_two_of_le hoff)
    refine ⟨{ s with rp := nextBank s.rp }, ?_, hs, hc.bskip_rp_toNat hw⟩
    rw [step_of_empty hin]
    exact decoderStep_of_completes hs (fetchInstr_of_zeros hw h0 h1) hc
  · rw [classify_bskip, readStreamWord_eq_zero]
    exact (and_iff_right h0).symm

end Sys2Proof.Proofs
end

section
/-! PROOFS of the statements about 30_encoding.md: the bytes that a decode takes, and the numbers that a
command word and an offset word stand for. -/

namespace Sys2Proof

/-- `opcodeLength` from the bits of the word as a number (30_encoding.md R82). -/
theorem opcodeLength_eq_testBit (w : Word) : opcodeLength w =
    if w.toNat.testBit 0 = true ∧ w.toNat.testBit 15 = false then 2 + w.toNat / 2 % 2 ^ 14 + 1
    else if w.toNat.testBit 0 = false ∧ w.toNat.testBit 15 = true then 4
    else 2 := by
  simp only [opcodeLength, tagBit, kindBit, BitVec.getLsbD, countField_toNat, Bool.and_eq_true,
    Bool.not_eq_true']

/-- A decode takes as many bytes as its command word says, whatever follows them (30_encoding.md R82). -/
theorem decode_length {lo hi : Byte} {more rest : List Byte} {i : Instr}
    (h : decode (lo :: hi :: more) = .ok (i, rest)) :
    (lo :: hi :: more).length = rest.length + opcodeLength (leWord lo hi) := by
  obtain ⟨lo', hi', more', heq, hcases⟩ := decode_cases h
  cases heq
  obtain ⟨payload, -, hc, rfl, hlen⟩ | ⟨-, hc, rfl⟩ | ⟨olo, ohi, -, hc, rfl⟩ | ⟨-, hc, rfl⟩ |
    ⟨-, hc, rfl⟩ | ⟨-, hc, rfl⟩ | ⟨-, hc, rfl⟩ := hcases
  case inl => -- LIT: the word and the payload
    rw [opcodeLength_lit hc]
    simp only [List.length_cons, List.length_append]
    omega
  case inr.inr.inl => -- DCOPY: the word and the offset word
    rw [opcodeLength_dcopy hc]
    rfl
  all_goals -- the word alone
    rw [opcodeLength_short (by simp [hc]) (by simp [hc])]
    rfl

end Sys2Proof

namespace Sys2Proof.Proofs
open Sys2Proof Sys2Proof.Machine

/-- Settles O5: the bytes taken are `opcodeLength` of the little-endian word, told from its bits. -/
theorem lengthFromCommandWord : Obligations.LengthFromCommandWord := by
  intro lo hi more i rest h
  have hlen := decode_length h
  rwa [opcodeLength_eq_testBit, leWord_toNat] at hlen

/-- Settles O6: `countOf_field` for the count, and `srcOf_eq`, which adds `2 ^ 16 - 0x2000` modulo
`2 ^ 16`, for the source index. -/
theorem operandsFromTheirWords : Obligations.OperandsFromTheirWords := by
  refine ⟨fun w => ?_, fun offset => ?_⟩
  · rw [countOf_field]
    omega
  · have hlt := offset.isLt
    rw [srcOf_eq]
    omega

end Sys2Proof.Proofs
end

section
/-! PROOFS of the statements about 40_data_opcodes.md: where LIT, SKIP and DCOPY complete and what they do,
their errors in order, and the overlap law of DCOPY. -/

namespace Sys2Proof.Machine

/-! ### The checks of each data opcode in order, as numbers -/

/-- LIT (40_data_opcodes.md R102, R103). -/
theorem exec_lit (payload : List Byte) (s : State) : exec (.lit payload) s = .next (
    if s.slenL.toNat < s.rp.toNat + 2 + payload.length then decodeError .stream s
    else if s.strictL = true ∧
        s.rp.toNat / 65536 ≠ (s.rp.toNat + (2 + payload.length) - 1) / 65536 then
      decodeError .bank s
    else if s.fsizeL.toNat < s.cursor.toNat + payload.length then decodeError .dest s
    else advance payload.length (2 + payload.length)
      { s with canvas := storeRun s.canvas s.cursor.toNat payload }) := by
  simp only [exec, execLit, guarded, streamShort_iff, crossesBank_iff, destOverrun_iff, Nat.add_assoc]

/-- SKIP (40_data_opcodes.md R107, R108). -/
theorem exec_skip (count : BitVec 14) (s : State) : exec (.skip count) s = .next (
    if s.strictL = true ∧ s.rp.toNat % 65536 = 0xFFFF then decodeError .bank s
    else if s.fsizeL.toNat < s.cursor.toNat + (count.toNat + 1) then decodeError .dest s
    else advance (countOf count) 2 s) := by
  simp only [exec, execSkip, guarded, crossesBank_iff, straddles_iff, destOverrun_iff,
    countOf]

/-- DCOPY (40_data_opcodes.md R112, R113, R114). -/
theorem exec_dcopy (count : BitVec 14) (offset : Word) (s : State) :
    exec (.dcopy count offset) s = .next (
    if s.slenL.toNat < s.rp.toNat + 4 then decodeError .stream s
    else if s.strictL = true ∧ s.rp.toNat / 65536 ≠ (s.rp.toNat + 4 - 1) / 65536 then
      decodeError .bank s
    else if s.fsizeL.toNat < s.cursor.toNat + (count.toNat + 1) then decodeError .dest s
    else if s.fsizeL.toNat < srcOf offset + (count.toNat + 1) then decodeError .src s
    else advance (countOf count) 4
      { s with canvas := copyForward (countOf count) s.canvas (srcOf offset) s.cursor.toNat }) := by
  simp only [exec, execDcopy, guarded, streamShort_iff, crossesBank_iff, destOverrun_iff,
    srcOverrun_iff, countOf]

/-! ### What an opcode that completes has done -/

/-- An opcode that completes moves `CURSOR` by its count (10_state.md R25). -/
theorem Completes.cursor_toNat {i : Instr} {s t : State} (h : Completes i s t) :
    t.cursor.toNat = s.cursor.toNat + moveCount i := by
  cases h with
  | lit _ _ inFrame | skip _ inFrame | dcopy _ _ inFrame => exact advance_cursor_toNat inFrame
  | bskip | eof | eoa => rfl

/-- An opcode that completes writes no canvas byte outside `[c, c + n)` (40_data_opcodes.md R117). -/
theorem Completes.readCanvas_outside {i : Instr} {s t : State} (h : Completes i s t) {j : Nat}
    (hj : j < s.cursor.toNat ∨ s.cursor.toNat + writeCount i ≤ j) :
    readCanvas t j = readCanvas s j := by
  cases h with
  | lit => exact canvasByte_storeRun_outside _ _ _ _ hj
  | dcopy => exact canvasByte_copyForward_outside _ _ _ _ _ hj
  | skip | bskip | eof | eoa => exact readCanvas_congr (by rfl) j

/-- A LIT that completes has written its payload at `CURSOR` (40_data_opcodes.md R102). -/
theorem Completes.lit_readCanvas {payload : List Byte} {s t : State}
    (h : Completes (.lit payload) s t) (i : Nat) (hi : i < payload.length) :
    readCanvas t (s.cursor.toNat + i) = payload[i] := by
  cases h
  exact canvasByte_storeRun_inside payload s.canvas _ i hi

/-- What transfer `i` of a DCOPY that completes has written (40_data_opcodes.md R114). -/
theorem Completes.dcopy_readCanvas {count : BitVec 14} {offset : Word} {s t : State}
    (h : Completes (.dcopy count offset) s t) (i : Nat) (hi : i < countOf count) :
    readCanvas t (s.cursor.toNat + i) =
      if s.cursor.toNat ≤ srcOf offset + i ∧ srcOf offset + i < s.cursor.toNat + i then
        readCanvas t (srcOf offset + i)
      else readCanvas s (srcOf offset + i) := by
  cases h
  exact canvasByte_copyForward_inside _ s.canvas _ _ i hi

/-- LIT, SKIP and DCOPY that complete change the canvas, `CURSOR` and `RP` alone (40_data_opcodes.md
R102, R107, R112). -/
theorem Completes.data_frame {i : Instr} {s t : State} (h : Completes i s t)
    (hi : classOf i = .lit ∨ classOf i = .skip ∨ classOf i = .dcopy) :
    t = { s with canvas := t.canvas, cursor := t.cursor, rp := t.rp } := by
  cases h with
  | lit | skip | dcopy => rfl
  | bskip | eof | eoa => simp [classOf] at hi

/-- SKIP makes no canvas access (40_data_opcodes.md R107). -/
theorem Completes.skip_canvas {count : BitVec 14} {s t : State} (h : Completes (.skip count) s t) :
    t.canvas = s.canvas := by
  cases h
  rfl

/-- The overlap law (40_data_opcodes.md R118): transfer `i` reads the old bytes before the cursor while
`i < p`, and from then on what transfer `i - p` wrote. -/
theorem Completes.dcopy_readCanvas_overlap {count : BitVec 14} {offset : Word} {s t : State}
    (h : Completes (.dcopy count offset) s t) (hsrc : srcOf offset < s.cursor.toNat) (i : Nat)
    (hi : i < countOf count) : readCanvas t (s.cursor.toNat + i) =
      readCanvas s (srcOf offset + i % (s.cursor.toNat - srcOf offset)) := by
  induction i using Nat.strong_induction_on with
  | _ i ih =>
    rw [h.dcopy_readCanvas i hi]
    by_cases hp : i < s.cursor.toNat - srcOf offset
    · rw [if_neg (by omega), Nat.mod_eq_of_lt hp]
    · have hprev : srcOf offset + i =
          s.cursor.toNat + (i - (s.cursor.toNat - srcOf offset)) := by omega
      rw [if_pos (by omega), hprev, ih _ (by omega) (by omega), ← Nat.mod_eq_sub_mod (by omega)]

end Sys2Proof.Machine

namespace Sys2Proof.Proofs
open Sys2Proof Sys2Proof.Machine

/-- Settles O13: where no check fails LIT completes, and each error is the first branch of `exec_lit`
that is taken. -/
theorem litMeaning : Obligations.LitMeaning := by
  intro s payload _ a c n short crossing overrun
  refine ⟨fun hs hc ho => ?_, fun hs => ?_, fun hs hc => ?_, fun hs hc ho => ?_⟩
  · have inStream : s.rp.toNat + (2 + payload.length) ≤ s.slenL.toNat := by
      rw [← Nat.add_assoc]; exact Nat.le_of_not_lt hs
    have h := Completes.lit inStream (crossesBank_false.2 hc) (Nat.le_of_not_lt ho)
    have hrp := h.rp_toNat (by omega) nofun
    exact ⟨_, exec_of_completes h, h.lit_readCanvas, fun j hj => h.readCanvas_outside hj,
      h.cursor_toNat, hrp.trans (Nat.add_assoc ..).symm, h.data_frame (.inl rfl)⟩
  · rw [exec_lit, if_pos hs]; rfl
  · rw [exec_lit, if_neg hs, if_pos hc]; rfl
  · rw [exec_lit, if_neg hs, if_neg hc, if_pos ho]; rfl

/-- Settles O14: where no check fails SKIP completes, and each error is the first branch of `exec_skip`
that is taken. -/
theorem skipMeaning : Obligations.SkipMeaning := by
  intro s count hw a c n crossing overrun
  refine ⟨fun hc ho => ?_, fun hc => ?_, fun hc ho => ?_⟩
  · have inBank : crossesBank s 2 = false := by rwa [crossesBank_false, straddles_iff]
    have h := Completes.skip (count := count) inBank (Nat.le_of_not_lt ho)
    exact ⟨_, exec_of_completes h, h.cursor_toNat, h.rp_toNat hw nofun, readCanvas_congr h.skip_canvas,
      h.data_frame (.inr (.inl rfl))⟩
  · rw [exec_skip, if_pos hc]; rfl
  · rw [exec_skip, if_neg hc, if_pos ho]; rfl

/-- Settles O15: where no check fails DCOPY completes, and each error is the first branch of `exec_dcopy`
that is taken. -/
theorem dcopyMeaning : Obligations.DcopyMeaning := by
  intro s count offset
  rw [← srcOf_eq]
  intro a c n src short crossing overrun overread
  refine ⟨fun hs hc ho hr => ?_, fun hs => ?_, fun hs hc => ?_, fun hs hc ho => ?_,
    fun hs hc ho hr => ?_⟩
  · have inStream : s.rp.toNat + 4 ≤ s.slenL.toNat := Nat.le_of_not_lt hs
    have h := Completes.dcopy (count := count) inStream (crossesBank_false.2 hc)
      (Nat.le_of_not_lt ho) (Nat.le_of_not_lt hr)
    exact ⟨_, exec_of_completes h, h.dcopy_readCanvas, fun j hj => h.readCanvas_outside hj,
      h.cursor_toNat, h.rp_toNat (by omega) nofun, h.data_frame (.inr (.inr rfl))⟩
  · rw [exec_dcopy, if_pos hs]; rfl
  · rw [exec_dcopy, if_neg hs, if_pos hc]; rfl
  · rw [exec_dcopy, if_neg hs, if_neg hc, if_pos ho]; rfl
  · rw [exec_dcopy, if_neg hs, if_neg hc, if_neg ho, if_pos hr]; rfl

/-- Settles O17: the overlap law for a DCOPY that has completed; where `n ≤ p` each `i` is its own
remainder. -/
theorem dcopyOverlapLaw : Obligations.DcopyOverlapLaw := by
  intro s t count offset _ hexec ht c src hsrc
  have h : Completes (.dcopy count offset) s t := completes_of_exec hexec (by simp [ht])
  have hoverlap := h.dcopy_readCanvas_overlap hsrc
  refine ⟨hoverlap, fun hn i hi => ?_⟩
  have hmod : i % (c - src) = i := Nat.mod_eq_of_lt (Nat.lt_of_lt_of_le hi hn)
  exact (hoverlap i hi).trans (by rw [hmod])

end Sys2Proof.Proofs
end

section
/-! PROOFS of the statements about 41_control_opcodes.md: where BSKIP, EOF and EOA complete and what they do,
their one error, and the reserved words. -/

namespace Sys2Proof

/-! ### Reserved words -/

/-- Where bit 15 is clear, the count field is the whole word without its bit 0 (30_encoding.md R81). -/
theorem countField_toNat_of_kindBit {w : Word} (hk : kindBit w = false) :
    (countField w).toNat = w.toNat / 2 := by
  have hlt : 2 * w.toNat < 2 ^ 16 := BitVec.msb_eq_false_iff_two_mul_lt.1 hk
  rw [countField_toNat]
  omega

/-- The reserved count fields as numbers (30_encoding.md R83). -/
theorem isReservedField_iff {count : BitVec 14} : Instr.isReservedField count = true ↔
    count.toNat ≠ 0 ∧ count.toNat ≠ 1 ∧ count.toNat ≠ 3 := by
  simp [Instr.isReservedField, ← BitVec.toNat_inj, and_assoc]

/-- A reserved word takes its own two bytes only (41_control_opcodes.md R139). -/
theorem decode_of_reserved {w : Word} (h : classify w = .reserved) (rest : List Byte) :
    decode (leBytes w ++ rest) = .ok (.reserved (countField w), rest) := by
  simp only [leBytes, List.cons_append, List.nil_append, decode, leWord_leBytes, h]

end Sys2Proof

namespace Sys2Proof.Machine

/-! ### The one error of the control opcodes -/

/-- `BankCheck` for a two-byte opcode, told from its offset in the bank (41_control_opcodes.md R134). -/
theorem crossesBank_two_iff {s : State} :
    crossesBank s 2 = true ↔ s.strictL = true ∧ s.rp.toNat % 65536 = 0xFFFF := by
  rw [crossesBank_iff, straddles_iff]

theorem crossesBank_two_false {s : State} :
    crossesBank s 2 = false ↔ ¬ (s.strictL = true ∧ s.rp.toNat % 65536 = 0xFFFF) := by
  rw [← crossesBank_two_iff, Bool.not_eq_true]

/-- A control opcode that straddles two banks raises E_BANK (41_control_opcodes.md R131, R134, R137). -/
theorem exec_control_of_crossing {i : Instr} {s : State} (hi : i = .bskip ∨ i = .eof ∨ i = .eoa)
    (h : crossesBank s 2 = true) : exec i s = .next (decodeError .bank s) := by
  obtain rfl | rfl | rfl := hi
  · simp only [exec, execBskip, guarded, h, if_true]
  · simp only [exec, execEof, guarded, h, if_true]
  · simp only [exec, execEoa, guarded, h, if_true]

/-! ### What a control opcode that completes has done -/

/-- BSKIP that completes changes `RP` alone (41_control_opcodes.md R131). -/
theorem Completes.bskip_frame {s t : State} (h : Completes .bskip s t) : t = { s with rp := t.rp } := by
  cases h
  rfl

/-- A terminator that completes changes `RP`, `OUT_CONSUMED` and `STATE` alone (41_control_opcodes.md
R134, R137). -/
theorem Completes.terminator_frame {i : Instr} {s t : State} (h : Completes i s t)
    (hi : i = .eof ∨ i = .eoa) :
    t = { s with rp := t.rp, outConsumed := t.outConsumed, fsm := t.fsm } := by
  obtain rfl | rfl := hi <;> cases h <;> rfl

/-- A terminator that completes moves `RP` past its own word (41_control_opcodes.md R134, R137). -/
theorem Completes.terminator_rp_toNat {i : Instr} {s t : State} (h : Completes i s t)
    (hi : i = .eof ∨ i = .eoa) (hw : s.rp.toNat + 2 ≤ s.slenL.toNat) :
    t.rp.toNat = s.rp.toNat + 2 := by
  obtain rfl | rfl := hi <;> exact h.rp_toNat hw nofun

/-- `OUT_CONSUMED` as a number: the subtraction and the 33 bits lose nothing (41_control_opcodes.md R135). -/
theorem endRun_outConsumed_toNat {s : State} (terminal : FsmState)
    (hw : s.rp.toNat + 2 ≤ s.slenL.toNat) :
    (endRun terminal s).outConsumed.toNat = s.rp.toNat + 2 - s.startL.toNat := by
  have hlen := s.slenL.isLt
  rw [endRun_outConsumed, BitVec.toNat_ofNat]
  omega

/-- The bytes consumed reach from `START_L` to just past the terminator word (41_control_opcodes.md
R135). -/
theorem Completes.terminator_consumed {i : Instr} {s t : State} (h : Completes i s t)
    (hi : i = .eof ∨ i = .eoa) (hw : s.rp.toNat + 2 ≤ s.slenL.toNat)
    (hstart : s.startL.toNat ≤ s.rp.toNat) :
    s.startL.toNat + t.outConsumed.toNat = s.rp.toNat + 2 := by
  have hcount : t.outConsumed.toNat = s.rp.toNat + 2 - s.startL.toNat := by
    obtain rfl | rfl := hi <;> cases h <;> exact endRun_outConsumed_toNat _ hw
  omega

end Sys2Proof.Machine

namespace Sys2Proof.Proofs
open Sys2Proof Sys2Proof.Machine

/-- Settles O19: BSKIP completes exactly where `BankCheck` passes, and the next bank begins above `a`. -/
theorem bskipMeaning : Obligations.BskipMeaning := by
  intro s hw a crossing
  refine ⟨fun hc => ?_, fun hc => ?_⟩
  · have h := Completes.bskip (crossesBank_two_false.2 hc)
    have hrp := h.bskip_rp_toNat hw
    have habove : s.rp.toNat < (s.rp.toNat / 65536 + 1) * 65536 := by omega
    exact ⟨_, exec_of_completes h, hrp, habove.trans_eq hrp.symm,
      fun j => h.readCanvas_outside (Nat.lt_or_ge j _), h.bskip_frame⟩
  · exact exec_control_of_crossing (.inl rfl) (crossesBank_two_iff.2 hc)

/-- Settles O20: EOF completes exactly where `BankCheck` passes, with the lemmas that both terminators
share. -/
theorem eofMeaning : Obligations.EofMeaning := by
  refine ⟨fun rest => rfl, ?_⟩
  intro s hw hstart a crossing
  refine ⟨fun hc => ?_, fun hc => ?_⟩
  · have h := Completes.eof (crossesBank_two_false.2 hc)
    have hrp := h.terminator_rp_toNat (.inl rfl) hw
    exact ⟨_, exec_of_completes h, rfl, hrp,
      (h.terminator_consumed (.inl rfl) hw hstart).trans hrp.symm,
      fun j => h.readCanvas_outside (Nat.lt_or_ge j _), h.terminator_frame (.inl rfl)⟩
  · exact exec_control_of_crossing (.inr (.inl rfl)) (crossesBank_two_iff.2 hc)

/-- Settles O22: a terminator that does not end in Error has completed. -/
theorem bytesConsumedEndPastTheTerminator : Obligations.BytesConsumedEndPastTheTerminator := by
  intro i s t hi hw hstart hexec ht
  have h := completes_of_exec hexec ht
  exact ⟨h.terminator_consumed hi hw hstart, h.terminator_rp_toNat hi hw⟩

/-- Settles O23: with bits 15 and 0 clear, the count field is `w / 2`, and it is a reserved one; RESERVED
has no check before its error. -/
theorem reservedMeaning : Obligations.ReservedMeaning := by
  refine ⟨fun w rest hk ht h0 h1 h3 => ?_, fun s count _ => rfl⟩
  have hcount : (countField w).toNat = w.toNat / 2 := countField_toNat_of_kindBit hk
  have hfield : Instr.isReservedField (countField w) = true :=
    isReservedField_iff.2 (by rw [hcount]; exact ⟨h0, h1, h3⟩)
  exact ⟨countField w, hcount, decode_of_reserved (classify_reserved.2 ⟨ht, hk, hfield⟩) rest⟩

end Sys2Proof.Proofs
end

section
/-! PROOFS of the statements about 45_matcher.md: what a Matcher can answer to a valid request, and that the
DCOPY of its answer writes the source. -/

namespace Sys2Proof.Machine

/-! ### What a Matcher can answer -/

/-- The answers to a valid request (45_matcher.md R155, R156): NONE where no candidate agrees at all, or
else a candidate of the greatest length, PATTERN on a tie. -/
inductive Answers (q : MatchRequest) : MatchResponse → Prop where
  | none (noPattern : (patternSearch q).1 = 0) (noSubstring : (substringSearch q).1 = 0) :
      Answers q (emptyResponse .none)
  | pattern {p : Nat} (pos : 1 ≤ p) (inRange : p ≤ maxPeriod q)
      (maximal : patLen q p = (patternSearch q).1) (nonempty : 0 < patLen q p)
      (notShorter : (substringSearch q).1 ≤ patLen q p) :
      Answers q (patternResponse q (patLen q p) p)
  | substring {s : Nat} (visible : s < q.extent.toNat)
      (maximal : subLen q s = (substringSearch q).1)
      (longer : (patternSearch q).1 < subLen q s) :
      Answers q (substringResponse (subLen q s) s)

/-- The period that the pattern search finds is one of the maximal candidates. -/
theorem patternSearch_mem {q : MatchRequest} (h : 0 < (patternSearch q).1) :
    (patternSearch q).2 ∈ maximalCandidates (patLen q) (patternSearch q).1 (maxPeriod q) 1 := by
  obtain ⟨-, -, hzero | ⟨hpos, hle, hlen, -⟩⟩ := patternSearch_spec q
  · omega
  · exact (mem_maximalCandidates _).2 ⟨hpos, hle, hlen⟩

/-- The start that the substring search finds is one of the maximal candidates. -/
theorem substringSearch_mem {q : MatchRequest} (h : 0 < (substringSearch q).1) :
    (substringSearch q).2 ∈ maximalCandidates (subLen q) (substringSearch q).1 q.extent.toNat 0 := by
  obtain ⟨-, -, hzero | ⟨hlt, hlen, -⟩⟩ := substringSearch_spec q
  · omega
  · exact (mem_maximalCandidates _).2 ⟨Nat.zero_le _, by omega, hlen⟩

theorem Answers.of_period {q : MatchRequest} {p : Nat} (hpos : 0 < (patternSearch q).1)
    (hle : (substringSearch q).1 ≤ (patternSearch q).1)
    (hp : p ∈ maximalCandidates (patLen q) (patternSearch q).1 (maxPeriod q) 1) :
    Answers q (patternResponse q (patternSearch q).1 p) := by
  obtain ⟨hp1, hple, hlen⟩ := (mem_maximalCandidates _).1 hp
  rw [← hlen] at hpos hle ⊢
  exact .pattern hp1 (by omega) hlen hpos hle

theorem Answers.of_start {q : MatchRequest} {s : Nat}
    (hlt : (patternSearch q).1 < (substringSearch q).1)
    (hs : s ∈ maximalCandidates (subLen q) (substringSearch q).1 q.extent.toNat 0) :
    Answers q (substringResponse (substringSearch q).1 s) := by
  obtain ⟨-, hvis, hlen⟩ := (mem_maximalCandidates _).1 hs
  rw [← hlen] at hlt ⊢
  exact .substring (by omega) hlen hlt

/-- The reference Matcher takes the first maximal candidate; where it leaves the substring search out, no
start can agree on more than the whole source. -/
theorem findBestMatch_answers {q : MatchRequest} (hvalid : requestValid q = true) :
    Answers q (findBestMatch q) := by
  simp only [findBestMatch, hvalid, if_true]
  split
  · next hfull =>
    have hle : (substringSearch q).1 ≤ (patternSearch q).1 :=
      (substringSearch_spec q).2.1.trans_eq hfull.1.symm
    exact .of_period hfull.2 hle (patternSearch_mem hfull.2)
  · split
    · next hzero => exact .none hzero.1 hzero.2
    · split
      · next hzero hle =>
        have hpos : 0 < (patternSearch q).1 := by omega
        exact .of_period hpos hle (patternSearch_mem hpos)
      · next hlt => exact .of_start (by omega) (substringSearch_mem (by omega))

/-- A Matcher that draws takes one of the maximal candidates, since there is one. -/
theorem findAnyBestMatch_answers (draw : Nat) {q : MatchRequest} (hvalid : requestValid q = true) :
    Answers q (findAnyBestMatch draw q) := by
  simp only [findAnyBestMatch, hvalid, if_true]
  split
  · next hzero => exact .none hzero.1 hzero.2
  · split
    · next hzero hle =>
      have hpos : 0 < (patternSearch q).1 := by omega
      exact .of_period hpos hle (pickCandidate_mem draw (List.ne_nil_of_mem (patternSearch_mem hpos)))
    · next hlt =>
      have hpos : 0 < (substringSearch q).1 := by omega
      exact .of_start (by omega)
        (pickCandidate_mem draw (List.ne_nil_of_mem (substringSearch_mem hpos)))

theorem findMatch_answers (choice : MatcherChoice) (draw : Nat) {q : MatchRequest}
    (hvalid : requestValid q = true) : Answers q (findMatch choice draw q) := by
  cases choice with
  | reference => exact findBestMatch_answers hvalid
  | any => exact findAnyBestMatch_answers draw hvalid

/-! ### The fields of a response lose nothing to their widths -/

theorem maxPeriod_le_cursor (q : MatchRequest) : maxPeriod q ≤ q.c.toNat :=
  (Nat.min_le_left _ _).trans (Nat.min_le_left _ _)

theorem maxPeriod_le_periodMax (q : MatchRequest) : maxPeriod q ≤ 4096 := Nat.min_le_right _ _

theorem extent_le_of_wf {q : MatchRequest} (hwf : q.wf = true) (hvalid : requestValid q = true) :
    q.extent.toNat ≤ 65536 :=
  (requestValid_iff.1 hvalid).2.trans (matchRequest_wf_iff.1 hwf).2

theorem patternResponse_len_toNat {q : MatchRequest} (hwf : q.wf = true) (p : Nat) :
    (patternResponse q (patLen q p) p).len.toNat = patLen q p := by
  have hlen := patLen_le q p
  have hsrc := (matchRequest_wf_iff.1 hwf).1
  exact Nat.mod_eq_of_lt (by omega)

theorem patternResponse_start_toNat {q : MatchRequest} (hwf : q.wf = true)
    (hvalid : requestValid q = true) {p : Nat} (hpos : 1 ≤ p) (k : Nat) :
    (patternResponse q k p).start.toNat = q.c.toNat - p := by
  have hc := (requestValid_iff.1 hvalid).1
  have hextent := extent_le_of_wf hwf hvalid
  exact Nat.mod_eq_of_lt (by omega)

theorem patternResponse_period_toNat {q : MatchRequest} {p : Nat} (hp : p ≤ maxPeriod q) (k : Nat) :
    (patternResponse q k p).period.toNat = p := by
  have hmax := maxPeriod_le_periodMax q
  exact Nat.mod_eq_of_lt (by omega)

theorem substringResponse_len_toNat {q : MatchRequest} (hwf : q.wf = true) (s : Nat) :
    (substringResponse (subLen q s) s).len.toNat = subLen q s := by
  have hlen := (subLen_le q s).trans (Nat.min_le_left _ _)
  have hsrc := (matchRequest_wf_iff.1 hwf).1
  exact Nat.mod_eq_of_lt (by omega)

theorem substringResponse_start_toNat {q : MatchRequest} (hwf : q.wf = true)
    (hvalid : requestValid q = true) {s : Nat} (hs : s < q.extent.toNat) (k : Nat) :
    (substringResponse k s).start.toNat = s := by
  have hextent := extent_le_of_wf hwf hvalid
  exact Nat.mod_eq_of_lt (by omega)

/-! ### What the lengths say of the bytes -/

theorem srcByte_of_lt_patLen {q : MatchRequest} {p i : Nat} (h : i < patLen q p) :
    srcByte q i = dictByte q (q.c.toNat - p + i % p) := by
  simpa using agreeRun_agrees _ _ _ _ h

theorem srcByte_of_lt_subLen {q : MatchRequest} {s i : Nat} (h : i < subLen q s) :
    srcByte q i = dictByte q (s + i) := by
  simpa using agreeRun_agrees _ _ _ _ h

/-- A match that starts behind the cursor does not pass it (45_matcher.md R154). -/
theorem add_subLen_le_cursor {q : MatchRequest} {s : Nat} (hs : s < q.c.toNat) :
    s + subLen q s ≤ q.c.toNat := by
  have hbound : subLen q s ≤ substringBound q s := (subLen_le q s).trans (Nat.min_le_right _ _)
  rw [substringBound, if_pos hs] at hbound
  omega

/-! ### What the DCOPY of an answer writes -/

section
variable {q : MatchRequest} {count : BitVec 14} {offset : Word} {s t : State}

/-- The DCOPY of a PATTERN repeats the last `p` bytes before the cursor, as the pattern search did. -/
theorem Completes.dcopy_writes_pattern (h : Completes (.dcopy count offset) s t)
    (hcursor : s.cursor = q.c) {p : Nat} (hpos : 1 ≤ p) (hp : p ≤ q.c.toNat)
    (hn : countOf count = patLen q p) (hsrc : srcOf offset = q.c.toNat - p)
    (hdict : ∀ j, q.c.toNat - p ≤ j → j < q.c.toNat → readCanvas s j = dictByte q j)
    (i : Nat) (hi : i < patLen q p) : readCanvas t (q.c.toNat + i) = srcByte q i := by
  have hmod : i % p < p := Nat.mod_lt i hpos
  have hcopy := h.dcopy_readCanvas_overlap (by rw [hsrc, hcursor]; omega) i (by omega)
  rw [hsrc, hcursor, Nat.sub_sub_self hp] at hcopy
  rw [hcopy, hdict _ (by omega) (by omega), srcByte_of_lt_patLen hi]

/-- The DCOPY of a SUBSTRING reads no byte that it has written: its source ends at the cursor or before
it, or it begins at the cursor or after it. -/
theorem Completes.dcopy_writes_substring (h : Completes (.dcopy count offset) s t)
    (hcursor : s.cursor = q.c) {start : Nat} (hn : countOf count = subLen q start)
    (hsrc : srcOf offset = start)
    (hdict : ∀ j, start ≤ j → j < start + subLen q start → readCanvas s j = dictByte q j)
    (i : Nat) (hi : i < subLen q start) : readCanvas t (q.c.toNat + i) = srcByte q i := by
  have hold : ¬ (q.c.toNat ≤ start + i ∧ start + i < q.c.toNat + i) := by
    by_cases hbehind : start < q.c.toNat
    · have hend := add_subLen_le_cursor hbehind
      omega
    · omega
  have hcopy := h.dcopy_readCanvas i (by omega)
  rw [hsrc, hcursor, if_neg hold] at hcopy
  rw [hcopy, hdict _ (by omega) (by omega), srcByte_of_lt_subLen hi]

end

end Sys2Proof.Machine

namespace Sys2Proof.Proofs
open Sys2Proof Sys2Proof.Machine

/-- Settles O47: by the kind of the answer. A PATTERN lies `p` behind the cursor, where the overlap law
repeats it; a SUBSTRING reads old bytes only. -/
theorem matcherResultsDecodeToTheSource : Obligations.MatcherResultsDecodeToTheSource := by
  intro choice draw q s t count offset hwf hvalid r c k start hk hcount hsrc hcursor _ hpattern
    hsubstring hexec ht
  have h : Completes (.dcopy count offset) s t := completes_of_exec hexec (by simp [ht])
  have hr : Answers q r := findMatch_answers choice draw hvalid
  clear_value r
  cases hr with
  | none => exact absurd hk (by decide)
  | @pattern p pos inRange =>
    have hlen : k = patLen q p := patternResponse_len_toNat hwf p
    have hstart : start = q.c.toNat - p := patternResponse_start_toNat hwf hvalid pos _
    rw [patternResponse_period_toNat inRange] at hpattern
    rw [hlen] at hcount ⊢
    exact h.dcopy_writes_pattern hcursor pos (inRange.trans (maxPeriod_le_cursor q)) hcount
      (hsrc.trans hstart) (hpattern rfl)
  | @substring x visible =>
    have hlen : k = subLen q x := substringResponse_len_toNat hwf x
    have hstart : start = x := substringResponse_start_toNat hwf hvalid visible _
    rw [hlen] at hcount hsubstring ⊢
    rw [hstart] at hsubstring
    exact h.dcopy_writes_substring hcursor hcount (hsrc.trans hstart) (hsubstring rfl)

end Sys2Proof.Proofs
end

section
/-! PROOFS of the statements about 60_exceptions.md: the error conditions in their order, what entering Error
changes, and where E_BANK is raised. -/

namespace Sys2Proof.Machine

/-! ### The error conditions in their order -/

/-- The conditions of 60_exceptions.md R183 for an opcode of class `c` and `len` bytes, with count `n` and
source index `src`: the first that holds is raised, and when none holds `done` happens. -/
def firstError (c : OpClass) (len n src : Nat) (s done : State) : State :=
  if c = .reserved then decodeError .reserved s
  else if s.slenL.toNat < s.rp.toNat + len then decodeError .stream s
  else if s.strictL = true ∧ s.rp.toNat / 65536 ≠ (s.rp.toNat + len - 1) / 65536 then
    decodeError .bank s
  else if (c = .lit ∨ c = .skip ∨ c = .dcopy) ∧ s.fsizeL.toNat < s.cursor.toNat + n then
    decodeError .dest s
  else if c = .dcopy ∧ s.fsizeL.toNat < src + n then decodeError .src s
  else done

/-- The source index of an opcode that has one. -/
def sourceOf : Instr → Nat
  | .dcopy _ offset => srcOf offset
  | _ => 0

/-- For a control opcode in the stream only E_BANK is left of the conditions (41_control_opcodes.md R132,
R134, R137). -/
theorem firstError_control {c : OpClass} {s : State} (hc : c = .bskip ∨ c = .eof ∨ c = .eoa)
    (hlen : s.rp.toNat + 2 ≤ s.slenL.toNat) (n src : Nat) (done : State) :
    firstError c 2 n src s done = guarded [(.bank, crossesBank s 2)] s done := by
  obtain rfl | rfl | rfl := hc <;>
    simp [firstError, guarded, crossesBank_iff, Nat.not_lt.2 hlen]

/-- `exec` raises the first error condition that holds of an opcode in the stream. The count matters for the
data opcodes alone, and the source index for DCOPY alone (60_exceptions.md R183). -/
theorem exec_eq_firstError {i : Instr} {s : State} {n src : Nat} (hs : s.fsm = .running)
    (hlen : s.rp.toNat + sizeOfInstr i ≤ s.slenL.toNat)
    (hn : classOf i = .lit ∨ classOf i = .skip ∨ classOf i = .dcopy → moveCount i = n)
    (hsrc : classOf i = .dcopy → sourceOf i = src) :
    ∃ done, done.fsm ≠ .error ∧
      exec i s = .next (firstError (classOf i) (sizeOfInstr i) n src s done) := by
  have hrun : s.fsm ≠ .error := by rw [hs]; decide
  cases i with
  | lit payload =>
    obtain rfl := hn (.inl rfl)
    refine ⟨advance payload.length (2 + payload.length)
      { s with canvas := storeRun s.canvas s.cursor.toNat payload }, hrun, ?_⟩
    simp [exec_lit, firstError, classOf, sizeOfInstr, encodedPayload, moveCount, Nat.add_assoc]
  | skip count =>
    obtain rfl := hn (.inr (.inl rfl))
    have hshort : ¬ s.slenL.toNat < s.rp.toNat + 2 := Nat.not_lt.2 hlen
    refine ⟨advance (countOf count) 2 s, hrun, ?_⟩
    simp [exec_skip, firstError, classOf, sizeOfInstr, encodedPayload, moveCount, countOf, hshort,
      ← straddles_iff]
  | dcopy count offset =>
    obtain rfl := hn (.inr (.inr rfl))
    obtain rfl := hsrc rfl
    refine ⟨advance (countOf count) 4
      { s with canvas := copyForward (countOf count) s.canvas (srcOf offset) s.cursor.toNat },
      hrun, ?_⟩
    simp [exec_dcopy, firstError, classOf, sizeOfInstr, encodedPayload, leBytes, moveCount, countOf,
      sourceOf]
  | bskip =>
    exact ⟨{ s with rp := nextBank s.rp }, hrun,
      congrArg _ (firstError_control (.inl rfl) hlen ..).symm⟩
  | eof =>
    exact ⟨endRun .endOfFrame s, nofun,
      congrArg _ (firstError_control (.inr (.inl rfl)) hlen ..).symm⟩
  | eoa =>
    exact ⟨endRun .endOfAnimation s, nofun,
      congrArg _ (firstError_control (.inr (.inr rfl)) hlen ..).symm⟩
  | reserved count => exact ⟨s, hrun, rfl⟩

/-- The count of a fetched data opcode comes from its command word (30_encoding.md R84). -/
theorem fetchInstr_moveCount {s : State} {i : Instr} (h : fetchInstr s = some i)
    (hi : classOf i = .lit ∨ classOf i = .skip ∨ classOf i = .dcopy) :
    moveCount i = (readStreamWord s s.rp.toNat).toNat / 2 % 2 ^ 14 + 1 := by
  have hop := fetchInstr_operands h
  rw [← countOf_field]
  cases i with
  | lit payload => rw [hop]; exact readStreamRun_length ..
  | skip count => rw [hop]; rfl
  | dcopy count offset => rw [hop.1]; rfl
  | bskip | eof | eoa | reserved => simp [classOf] at hi

/-- The source index of a fetched DCOPY comes from its offset word (30_encoding.md R85). -/
theorem fetchInstr_sourceOf {s : State} {i : Instr} (h : fetchInstr s = some i)
    (hi : classOf i = .dcopy) :
    sourceOf i = srcOf (readStreamWord s (s.rp.toNat + 2)) := by
  have hop := fetchInstr_operands h
  cases i with
  | dcopy count offset => rw [hop.2]; rfl
  | lit | skip | bskip | eof | eoa | reserved => cases hi

/-- The turn of a Running block raises the first of the six conditions of 60_exceptions.md R183 that holds,
all told from the stream at `RP`. -/
theorem decoderStep_eq_firstError {s : State} (hs : s.fsm = .running) :
    ∃ done, done.fsm ≠ .error ∧ decoderStep s = .next (
      if s.slenL.toNat < s.rp.toNat + 2 then decodeError .stream s
      else firstError (classify (readStreamWord s s.rp.toNat))
        (opcodeLength (readStreamWord s s.rp.toNat))
        ((readStreamWord s s.rp.toNat).toNat / 2 % 2 ^ 14 + 1)
        (srcOf (readStreamWord s (s.rp.toNat + 2))) s done) := by
  simp only [decoderStep, hs, if_true]
  cases hi : fetchInstr s with
  | some i =>
    obtain ⟨hword, hlen, hclass, hsize, -⟩ := fetchInstr_eq_some hi
    simp only [if_neg (Nat.not_lt.2 hword), hclass, hsize]
    exact exec_eq_firstError hs hlen (fetchInstr_moveCount hi) (fetchInstr_sourceOf hi)
  | none =>
    refine ⟨s, by simp [hs], ?_⟩
    by_cases hword : s.slenL.toNat < s.rp.toNat + 2
    · rw [if_pos hword]
    · have hshort := (fetchInstr_eq_none.1 hi).resolve_left hword
      -- a reserved word has no rest that could be missing
      have hclass : classify (readStreamWord s s.rp.toNat) ≠ .reserved := fun hc =>
        hword (by rwa [opcodeLength_short (by simp [hc]) (by simp [hc])] at hshort)
      rw [if_neg hword, firstError, if_neg hclass, if_pos hshort]

/-- An opcode records E_BANK only where its bytes lie in two banks (60_exceptions.md R182). -/
theorem crossesBank_of_exec_bank {i : Instr} {s : State} (hs : s.fsm = .running)
    (h : exec i s = .next (decodeError .bank s)) : crossesBank s (sizeOfInstr i) = true := by
  rcases exec_cases h with ⟨code, hreason, hcode⟩ | hc
  · obtain rfl := decodeError_injective hcode
    exact hreason
  · exact absurd rfl (hc.fsm_ne_error hs)

end Sys2Proof.Machine

namespace Sys2Proof.Proofs
open Sys2Proof Sys2Proof.Machine

/-- Settles O24: each clause is one branch of the chain that `decoderStep_eq_firstError` states. -/
theorem errorsInPriorityOrder : Obligations.ErrorsInPriorityOrder := by
  intro s hin hs a w len n src raises noWord isReserved short crossing overrun overread
  obtain ⟨done, hdone, hstep⟩ := decoderStep_eq_firstError hs
  rw [← step_of_empty hin] at hstep
  refine ⟨fun hw => ?_, fun hw hr => ?_, fun hw hr hl => ?_, fun hw hr hl hb => ?_,
    fun hw hr hl hb hd => ?_, fun hw hr hl hb hd hv => ?_, fun hw hr hl hb hd hv => ?_⟩
  · exact hstep.trans (by rw [if_pos hw]; rfl)
  · exact hstep.trans (by rw [if_neg hw, firstError, if_pos hr]; rfl)
  · exact hstep.trans (by rw [if_neg hw, firstError, if_neg hr, if_pos hl]; rfl)
  · exact hstep.trans (by rw [if_neg hw, firstError, if_neg hr, if_neg hl, if_pos hb]; rfl)
  · exact hstep.trans (by
      rw [if_neg hw, firstError, if_neg hr, if_neg hl, if_neg hb, if_pos hd]; rfl)
  · exact hstep.trans (by
      rw [if_neg hw, firstError, if_neg hr, if_neg hl, if_neg hb, if_neg hd, if_pos hv]; rfl)
  · exact ⟨done, hstep.trans (by
      rw [if_neg hw, firstError, if_neg hr, if_neg hl, if_neg hb, if_neg hd, if_neg hv]), hdone⟩

/-- Settles O25: of the cases of `decoderStep_cases`, only the raised error ends in Error. -/
theorem enteringErrorChangesNothingElse : Obligations.EnteringErrorChangesNothingElse := by
  intro s t hin hs h ht
  rw [step_of_empty hin] at h
  rcases decoderStep_cases h with ⟨hidle, -⟩ | ⟨-, code, hnone, hconfig, rfl⟩ | ⟨-, i, -, hc⟩
  · exact absurd hs hidle
  · exact ⟨code, hnone, hconfig, rfl⟩
  · exact absurd ht (hc.fsm_ne_error hs)

/-- Settles O26: the recorded code tells that `BankCheck` failed; conversely, of an opcode in the stream no
condition before E_BANK holds. -/
theorem bankErrorExactlyWhenStrictAndCrossing :
    Obligations.BankErrorExactlyWhenStrictAndCrossing := by
  intro s i _ hs hlen hclass
  refine ⟨fun h => ?_, fun hcross => ?_⟩
  · simpa [crossesBank, bankOf] using crossesBank_of_exec_bank hs h
  · obtain ⟨done, -, h⟩ := exec_eq_firstError hs hlen (fun _ => rfl) (fun _ => rfl)
    rw [Nat.shiftRight_eq_div_pow, Nat.shiftRight_eq_div_pow] at hcross
    rw [h, firstError, if_neg hclass, if_neg (Nat.not_lt.2 hlen), if_pos hcross]
    rfl

end Sys2Proof.Proofs
end

section
/-! PROOFS of the statements about 70_reset_and_hazards.md: a start command in each of its three cases, and
the bound on the steps of a run. -/

namespace Sys2Proof.Machine

/-! ### The start command, case by case -/

/-- A start while Running is ignored (70_reset_and_hazards.md R203). -/
theorem startCommand_of_running {s : State} (hs : s.fsm = .running) : startCommand s = s :=
  if_pos hs

/-- A start for a canvas above 65536 bytes raises E_CONFIG (70_reset_and_hazards.md R203). -/
theorem startCommand_of_too_large {s : State} (hs : s.fsm ≠ .running)
    (hsize : 65536 < s.cfgFrameSize.toNat) : startCommand s =
      { latch s with
        outErrCode := .config, outErrOffset := s.cfgStart.setWidth 33, fsm := .error } :=
  (if_neg hs).trans (if_pos hsize)

/-- A start for any other canvas enters Running (70_reset_and_hazards.md R203). -/
theorem startCommand_of_fits {s : State} (hs : s.fsm ≠ .running)
    (hsize : s.cfgFrameSize.toNat ≤ 65536) : startCommand s = { latch s with fsm := .running } :=
  (if_neg hs).trans (if_neg (Nat.not_lt.2 hsize))

/-! ### Every turn of a Running block ends the run or brings its end nearer -/

/-- An opcode that completes leaves the latched stream length as it is (10_state.md R28). -/
theorem Completes.slenL_eq {i : Instr} {s t : State} (h : Completes i s t) : t.slenL = s.slenL := by
  cases h <;> rfl

/-- An opcode that completes moves `RP` forward (10_state.md R27). -/
theorem Completes.rp_lt {i : Instr} {s t : State} (h : Completes i s t)
    (hw : s.rp.toNat + 2 ≤ s.slenL.toNat) : s.rp.toNat < t.rp.toNat := by
  by_cases hi : i = .bskip
  · subst hi
    have hrp := h.bskip_rp_toNat hw
    omega
  · have hrp := h.rp_toNat hw hi
    have hsize : 2 ≤ sizeOfInstr i := Nat.le_add_right ..
    omega

/-- An opcode that completes lowers the bound on the steps. Its word takes two bytes of the stream, so the
bound was not already at its least value 1. -/
theorem Completes.stepBound_lt {i : Instr} {s t : State} (h : Completes i s t)
    (hw : s.rp.toNat + 2 ≤ s.slenL.toNat) : stepBound t < stepBound s := by
  have hrp := h.rp_lt hw
  rw [stepBound, stepBound, h.slenL_eq]
  omega

/-- The turn of a Running block ends the run, or keeps the block Running and lowers the bound. -/
theorem decoderStep_terminal_or_stepBound_lt {s t : State} (hs : s.fsm = .running)
    (h : decoderStep s = .next t) :
    isTerminal t.fsm = true ∨ (t.fsm = .running ∧ stepBound t < stepBound s) := by
  rcases decoderStep_cases h with ⟨hidle, -⟩ | ⟨-, code, -, -, rfl⟩ | ⟨-, i, hi, hc⟩
  · exact absurd hs hidle
  · exact .inl rfl
  · obtain ⟨hw, -⟩ := fetchInstr_eq_some hi
    have hlt := hc.stepBound_lt hw
    cases hc with
    | lit | skip | dcopy | bskip => exact .inr ⟨hs, hlt⟩
    | eof | eoa => exact .inl rfl

/-- A run of the decoder alone reaches a terminal state within the bound of 70_reset_and_hazards.md R219:
strong induction on that bound. -/
theorem run_reaches_terminal (s : State) (hin : s.inbox = []) (hs : s.fsm = .running) :
    ∃ k t, k ≤ stepBound s ∧ Host.Core.run Sys2Proof.core k s = .next t ∧
      isTerminal t.fsm = true := by
  induction hbound : stepBound s using Nat.strong_induction_on generalizing s with
  | _ bound ih =>
    subst hbound
    obtain ⟨u, hu, hstep, huin, -⟩ := run_succ_of_empty 0 hin
    rcases decoderStep_terminal_or_stepBound_lt hs hu with hterm | ⟨hurun, hlt⟩
    · exact ⟨1, u, Nat.le_max_left .., run_succ hstep, hterm⟩
    · obtain ⟨k, t, hk, hrun, hterm⟩ := ih _ hlt u huin hurun rfl
      exact ⟨k + 1, t, hk.trans_lt hlt, (run_succ hstep).trans hrun, hterm⟩

end Sys2Proof.Machine

namespace Sys2Proof.Proofs
open Sys2Proof Sys2Proof.Machine

/-- Settles O35: `stepBound` is the bound of the statement. -/
theorem everyRunTerminates : Obligations.EveryRunTerminates := run_reaches_terminal

/-- Settles O40: the step is `startCommand` on the state without the move, in each of its three cases. -/
theorem startCommandMeaning : Obligations.StartCommandMeaning := by
  intro s rest hin latched
  have hstep : step s = .next (startCommand { s with inbox := rest }) := step_of_cons hin
  refine ⟨fun hs => ?_, fun hs hsize => ?_, fun hs hsize => ?_⟩
  · exact hstep.trans (congrArg _ (startCommand_of_running hs))
  · exact hstep.trans (congrArg _ (startCommand_of_too_large hs hsize))
  · exact hstep.trans (congrArg _ (startCommand_of_fits hs hsize))

end Sys2Proof.Proofs
end

section
/-! PROOFS of the statements about 30_encoding.md: decoding and encoding are inverse, and the opcode map
splits the words by their classes. -/

namespace Sys2Proof

/-! ### Decoding what was encoded -/

/-- A well-formed instruction is decoded from its own bytes: the command word tells its class, its count
field and so how long its payload is (30_encoding.md R83 to R88). -/
theorem decode_encode (i : Instr) (rest : List Byte) (h : i.wf = true) :
    decode (encode i ++ rest) = .ok (i, rest) := by
  have hclass := classify_commandWord i h
  simp only [encode, leBytes, List.cons_append, List.nil_append, decode, leWord_leBytes, hclass]
  cases i with
  | lit payload =>
    have hlen : payload.length = (countField (commandWord (.lit payload))).toNat + 1 := by
      have hfits : 1 ≤ payload.length := by
        simp only [Instr.wf, Instr.payloadFits, Bool.and_eq_true, decide_eq_true_eq] at h
        exact h.1
      rw [(commandWord_lit payload h).2.2]
      omega
    simp only [classOf, encodedPayload, takeBytes_eq_some.2 ⟨rfl, hlen⟩]
  | skip count => simp only [classOf, encodedPayload, commandWord_skip, List.nil_append]
  | dcopy count offset =>
    simp only [classOf, encodedPayload, commandWord_dcopy, leBytes, List.cons_append, List.nil_append,
      leWord_leBytes]
  | bskip | eof | eoa => rfl
  | reserved count => simp only [classOf, encodedPayload, commandWord_reserved, List.nil_append]

/-! ### Encoding what was decoded -/

/-- Two words with the same fields are the same word (30_encoding.md R81). -/
theorem word_ext {w v : Word} (hkind : kindBit w = kindBit v) (htag : tagBit w = tagBit v)
    (hcount : countField w = countField v) : w = v := by
  rw [word_of_fields w, hkind, htag, hcount, ← word_of_fields v]

/-- A payload as long as a count field says fits a LIT (30_encoding.md R84). -/
theorem lit_wf_of_length {payload : List Byte} {count : BitVec 14}
    (h : payload.length = count.toNat + 1) : (Instr.lit payload).wf = true := by
  have hlt := count.isLt
  have hmax : Config.maxLen = 16384 := rfl
  simp only [Instr.wf, Instr.payloadFits, Bool.and_eq_true, decide_eq_true_eq]
  omega

/-- The instruction a command word decodes to has that command word. -/
theorem commandWord_lit_of_classify {w : Word} {payload : List Byte} (hc : classify w = .lit)
    (hlen : payload.length = (countField w).toNat + 1) : commandWord (.lit payload) = w := by
  obtain ⟨hkind, htag, hcount⟩ := commandWord_lit payload (lit_wf_of_length hlen)
  obtain ⟨htag', hkind'⟩ := classify_lit.1 hc
  refine word_ext (hkind.trans hkind'.symm) (htag.trans htag'.symm) (BitVec.eq_of_toNat_eq ?_)
  omega

theorem commandWord_skip_of_classify {w : Word} (hc : classify w = .skip) :
    commandWord (.skip (countField w)) = w := by
  obtain ⟨hkind, htag, hcount⟩ := commandWord_skip (countField w)
  obtain ⟨htag', hkind'⟩ := classify_skip.1 hc
  exact word_ext (hkind.trans hkind'.symm) (htag.trans htag'.symm) hcount

theorem commandWord_dcopy_of_classify {w : Word} (hc : classify w = .dcopy) (offset : Word) :
    commandWord (.dcopy (countField w) offset) = w := by
  obtain ⟨hkind, htag, hcount⟩ := commandWord_dcopy (countField w) offset
  obtain ⟨htag', hkind'⟩ := classify_dcopy.1 hc
  exact word_ext (hkind.trans hkind'.symm) (htag.trans htag'.symm) hcount

theorem commandWord_reserved_of_classify {w : Word} (hc : classify w = .reserved) :
    commandWord (.reserved (countField w)) = w := by
  obtain ⟨hkind, htag, hcount⟩ := commandWord_reserved (countField w)
  obtain ⟨htag', hkind', -⟩ := classify_reserved.1 hc
  exact word_ext (hkind.trans hkind'.symm) (htag.trans htag'.symm) hcount

/-- What decodes is well-formed and is the encoding of what it decodes to (30_encoding.md R80 to R88). -/
theorem encode_of_decode {bytes rest : List Byte} {i : Instr} (h : decode bytes = .ok (i, rest)) :
    i.wf = true ∧ encode i ++ rest = bytes := by
  obtain ⟨lo, hi, more, rfl, hcases⟩ := decode_cases h
  have hword : ∀ {i : Instr}, commandWord i = leWord lo hi →
      encode i ++ rest = lo :: hi :: (encodedPayload i ++ rest) := fun {i} hw => by
    rw [encode, hw, leBytes_leWord]; rfl
  obtain ⟨payload, rfl, hc, rfl, hlen⟩ | ⟨rfl, hc, rfl⟩ | ⟨olo, ohi, rfl, hc, rfl⟩ | ⟨rfl, hc, rfl⟩ |
    ⟨rfl, hc, rfl⟩ | ⟨rfl, hc, rfl⟩ | ⟨rfl, hc, rfl⟩ := hcases
  · exact ⟨lit_wf_of_length hlen, hword (commandWord_lit_of_classify hc hlen)⟩
  · exact ⟨rfl, hword (commandWord_skip_of_classify hc)⟩
  · refine ⟨rfl, (hword (commandWord_dcopy_of_classify hc _)).trans ?_⟩
    rw [encodedPayload, leBytes_leWord]; rfl
  · exact ⟨rfl, hword (classify_bskip.1 hc).symm⟩
  · exact ⟨rfl, hword (classify_eof.1 hc).symm⟩
  · exact ⟨rfl, hword (classify_eoa.1 hc).symm⟩
  · exact ⟨(classify_reserved.1 hc).2.2, hword (commandWord_reserved_of_classify hc)⟩

/-! ### The rows of the opcode map -/

/-- Under the mask of the rows that leave the count field free, a word is its kind and tag bits. -/
theorem and_kindTagMask (w : Word) : w &&& 0x8001#16 =
    (if kindBit w then 0x8000#16 else 0#16) ||| (if tagBit w then 0x0001#16 else 0#16) := by
  apply BitVec.eq_of_getLsbD_eq
  intro i hi
  cases hk : kindBit w <;> cases ht : tagBit w <;>
    simp only [kindBit, tagBit, BitVec.getLsbD_eq_getElem (show 15 < 16 by omega),
      BitVec.getLsbD_eq_getElem (show 0 < 16 by omega)] at hk ht <;>
    interval_cases i <;> simp [hk, ht]

/-- A reserved word, told from its kind and tag bits and its exact value (30_encoding.md R83). -/
theorem classify_reserved_iff_ne {w : Word} : classify w = .reserved ↔
    tagBit w = false ∧ kindBit w = false ∧ w ≠ 0x0000#16 ∧ w ≠ 0x0002#16 ∧ w ≠ 0x0006#16 := by
  unfold classify
  cases tagBit w <;> cases kindBit w <;> simp
  split_ifs <;> simp [*]

/-- A row matches exactly the words of its class (30_encoding.md R83, R91). -/
theorem rowMatches_iff {row : OpcodeRow} (hrow : row ∈ opcodeMap) (w : Word) :
    rowMatches row w = true ↔ classify w = row.opClass := by
  have hexact : w &&& 0xFFFF#16 = w := BitVec.and_allOnes
  simp only [opcodeMap, List.mem_cons, List.not_mem_nil, or_false] at hrow
  rcases hrow with rfl | rfl | rfl | rfl | rfl | rfl | rfl
  · rw [classify_lit]
    cases hk : kindBit w <;> cases ht : tagBit w <;> simp [rowMatches, and_kindTagMask, hk, ht]
  · rw [classify_skip]
    cases hk : kindBit w <;> cases ht : tagBit w <;> simp [rowMatches, and_kindTagMask, hk, ht]
  · rw [classify_dcopy]
    cases hk : kindBit w <;> cases ht : tagBit w <;> simp [rowMatches, and_kindTagMask, hk, ht]
  · rw [classify_bskip]; simp [rowMatches, hexact]
  · rw [classify_eof]; simp [rowMatches, hexact]
  · rw [classify_eoa]; simp [rowMatches, hexact]
  · rw [classify_reserved_iff_ne]
    cases hk : kindBit w <;> cases ht : tagBit w <;> simp [rowMatches, and_kindTagMask, hk, ht]

/-- Every class has one row, and no two rows have the same class. -/
theorem opcodeMap_classes (c : OpClass) : ∃ row ∈ opcodeMap, row.opClass = c ∧
    ∀ other ∈ opcodeMap, other.opClass = c → other = row := by
  cases c <;> decide

end Sys2Proof

namespace Sys2Proof.Proofs
open Sys2Proof Sys2Proof.Machine

/-- Settles O2: `decode_encode`. -/
theorem encodeThenDecodeGivesBack : Obligations.EncodeThenDecodeGivesBack := decode_encode

/-- Settles O3: `encode_of_decode`. -/
theorem decodeThenEncodeGivesBack : Obligations.DecodeThenEncodeGivesBack :=
  fun _ _ _ => encode_of_decode

/-- Settles O4: a row matches by the class of the word, and each class has its one row. -/
theorem everyWordInItsOneRow : Obligations.EveryWordInItsOneRow := by
  intro w
  obtain ⟨row, hrow, hclass, hunique⟩ := opcodeMap_classes (classify w)
  refine ⟨row, hrow, hclass, fun other hother => ?_⟩
  rw [rowMatches_iff hother]
  exact ⟨fun h => hunique other hother h.symm, fun h => h ▸ hclass.symm⟩

/-- Settles O1: each of the ten decodes by computation. -/
theorem wordsOfTheSpecDecode : Obligations.WordsOfTheSpecDecode :=
  ⟨rfl, rfl, rfl, rfl, rfl, rfl, rfl, rfl, rfl, rfl⟩

end Sys2Proof.Proofs
end

section
/-! PROOFS of the statements about the producer's side, 30_encoding.md section 6 and
70_reset_and_hazards.md section 3: assembler lines, the pieces of a long copy, and the file header. -/

namespace Sys2Proof.Machine

/-! ### Operands as an assembler line gives them -/

/-- The count field of a count holds that count (30_encoding.md R84, R88). -/
theorem countOf_fieldOf {n : Nat} (hpos : 1 ≤ n) (hmax : n ≤ 16384) : countOf (fieldOf n) = n := by
  rw [countOf, fieldOf, BitVec.toNat_ofNat]
  omega

/-- The bias of an offset word is taken off again (30_encoding.md R85, R88). -/
theorem srcOf_biasOffset {off : Nat} (h : off < 65536) : srcOf (biasOffset off) = off := by
  rw [srcOf, biasOffset, BitVec.add_sub_cancel, BitVec.toNat_ofNat]
  exact Nat.mod_eq_of_lt h

theorem countInRange_of_le {n : Nat} (hpos : 1 ≤ n) (hmax : n ≤ 16384) : countInRange n = true := by
  rw [countInRange, Bool.and_eq_true, decide_eq_true_eq, decide_eq_true_eq]
  exact ⟨hpos, hmax⟩

/-! ### The pieces of a long copy -/

/-- The pieces of a count make it up, and each fits a count field (30_encoding.md R90). -/
theorem splitCount_spec (fuel : Nat) : ∀ n, n ≤ fuel → (splitCount fuel n).sum = n ∧
    ∀ k ∈ splitCount fuel n, 1 ≤ k ∧ k ≤ 16384 := by
  have hmax : Config.maxLen = 16384 := rfl
  induction fuel with
  | zero => intro n hn; simp [splitCount]; omega
  | succ fuel ih =>
    intro n hn
    unfold splitCount
    split_ifs with hzero hfits
    · simp [hzero]
    · simp; omega
    · obtain ⟨hsum, hrange⟩ := ih (n - Config.maxLen) (by omega)
      simp only [List.sum_cons, List.forall_mem_cons, hsum]
      exact ⟨by omega, by omega, hrange⟩

/-- The canvas and the cursor after one piece of a copy. -/
def copyPiece (acc : Memory × Nat) (i : Instr) : Memory × Nat :=
  match i with
  | .dcopy count offset =>
    (copyForward (countOf count) acc.1 (srcOf offset) acc.2, acc.2 + countOf count)
  | _ => acc

/-- Pieces that fit their fields and stay within the offsets make the transfers of one copy of their sum
(30_encoding.md R90; 40_data_opcodes.md R114). -/
theorem foldl_copyPiece_dcopyPieces (counts : List Nat) : ∀ (off dst : Nat) (m : Memory),
    (∀ k ∈ counts, 1 ≤ k ∧ k ≤ 16384) → off + counts.sum ≤ 65536 →
    (dcopyPieces counts off).foldl copyPiece (m, dst) =
      (copyForward counts.sum m off dst, dst + counts.sum) := by
  induction counts with
  | nil => intro off dst m _ _; rfl
  | cons k counts ih =>
    intro off dst m hrange hoff
    rw [List.sum_cons] at hoff ⊢
    obtain ⟨⟨hpos, hmax⟩, hrange⟩ := List.forall_mem_cons.1 hrange
    rw [dcopyPieces, List.foldl_cons, copyPiece, countOf_fieldOf hpos hmax,
      srcOf_biasOffset (by omega), ih _ _ _ hrange (by omega), copyForward_add, Nat.add_assoc]

/-- Every piece is a DCOPY (30_encoding.md R90). -/
theorem mem_dcopyPieces (counts : List Nat) : ∀ {off : Nat} {i : Instr}, i ∈ dcopyPieces counts off →
    ∃ count offset, i = .dcopy count offset := by
  induction counts with
  | nil => intro off i h; cases h
  | cons k counts ih =>
    intro off i h
    rcases List.mem_cons.1 h with rfl | h
    · exact ⟨_, _, rfl⟩
    · exact ih h

/-! ### The fields of the file header -/

theorem bytesOfNat_length (n : Nat) : ∀ w, (bytesOfNat n w).length = n := by
  induction n with
  | zero => intro w; rfl
  | succ n ih => intro w; rw [bytesOfNat, List.length_cons, ih]

/-- A number is read back from its little-endian bytes. -/
theorem readNumber_bytesOfNat (n : Nat) : ∀ {w : Nat}, w < 256 ^ n → ∀ rest,
    readNumber n (bytesOfNat n w ++ rest) = some w := by
  induction n with
  | zero => intro w h rest; simp only [pow_zero, Nat.lt_one_iff] at h; rw [h]; rfl
  | succ n ih =>
    intro w h rest
    have hhigh : w / 256 < 256 ^ n := Nat.div_lt_of_lt_mul (by rwa [pow_succ'] at h)
    simp only [bytesOfNat, List.cons_append, readNumber, ih hhigh, BitVec.toNat_ofNat]
    exact congrArg some (Nat.mod_add_div w 256)

/-- The header fields stand at the offsets 4, 8, 10, 12, 14 and 16 (70_reset_and_hazards.md R210). -/
theorem parseHeader_of_fields (h : Header) (rest : List Byte)
    (hlen : h.fileLength < 2 ^ 32) (hversion : h.version < 2 ^ 16) (hwidth : h.widthBytes < 2 ^ 16)
    (hheight : h.height < 2 ^ 16) (hsize : h.frameSize < 2 ^ 16) (hcount : h.frameCount < 2 ^ 32)
    (hfile : 20 + rest.length = h.fileLength) :
    parseHeader (magicBytes ++ bytesOfNat 4 h.fileLength ++ bytesOfNat 2 h.version ++
      bytesOfNat 2 h.widthBytes ++ bytesOfNat 2 h.height ++ bytesOfNat 2 h.frameSize ++
      bytesOfNat 4 h.frameCount ++ rest) = some h := by
  generalize hall : magicBytes ++ bytesOfNat 4 h.fileLength ++ bytesOfNat 2 h.version ++
    bytesOfNat 2 h.widthBytes ++ bytesOfNat 2 h.height ++ bytesOfNat 2 h.frameSize ++
    bytesOfNat 4 h.frameCount ++ rest = file
  -- each field before the one read has a fixed length, so `drop` computes down to the field
  have hread4 : readNumber 4 (file.drop 4) = some h.fileLength :=
    hall ▸ readNumber_bytesOfNat 4 hlen _
  have hread8 : readNumber 2 (file.drop 8) = some h.version :=
    hall ▸ readNumber_bytesOfNat 2 hversion _
  have hread10 : readNumber 2 (file.drop 10) = some h.widthBytes :=
    hall ▸ readNumber_bytesOfNat 2 hwidth _
  have hread12 : readNumber 2 (file.drop 12) = some h.height :=
    hall ▸ readNumber_bytesOfNat 2 hheight _
  have hread14 : readNumber 2 (file.drop 14) = some h.frameSize :=
    hall ▸ readNumber_bytesOfNat 2 hsize _
  have hread16 : readNumber 4 (file.drop 16) = some h.frameCount :=
    hall ▸ readNumber_bytesOfNat 4 hcount _
  have hmagic : file.take 4 = magicBytes := hall ▸ rfl
  have hlength : h.fileLength = file.length := by
    rw [← hfile, ← hall]; simp [magicBytes, bytesOfNat_length]; omega
  simp only [parseHeader, hread4, hread8, hread10, hread12, hread14, hread16]
  exact if_pos ⟨hmagic, hlength⟩

end Sys2Proof.Machine

namespace Sys2Proof.Proofs
open Sys2Proof Sys2Proof.Machine

/-- Settles O56: each line's operands come back from its fields, and its bytes decode to its opcode. -/
theorem assembledLinesDecode : Obligations.AssembledLinesDecode := by
  intro here n off bytes rest hpos hmax hoff
  have hn : countInRange n = true := countInRange_of_le hpos hmax
  refine ⟨fun hlen => ⟨encode (.lit bytes), ?_, ?_⟩, ?_, ?_⟩
  · simp [assembleLine, hn, hlen]
  · refine decode_encode _ _ ?_
    subst hlen
    exact hn
  · exact ⟨encode (.skip (fieldOf n)), fieldOf n, by simp [assembleLine, hn], decode_encode _ _ rfl,
      countOf_fieldOf hpos hmax⟩
  · exact ⟨encode (.dcopy (fieldOf n) (biasOffset off)), fieldOf n, biasOffset off,
      by simp [assembleLine, hn, hoff], decode_encode _ _ rfl, countOf_fieldOf hpos hmax,
      srcOf_biasOffset hoff⟩

/-- Settles O57: the pieces make up the count, and so the transfers of one copy. -/
theorem dcopysMakeTheTransfersOfOneCopy : Obligations.DcopysMakeTheTransfersOfOneCopy := by
  intro n off dst m hoff piece
  obtain ⟨hsum, hrange⟩ := splitCount_spec n n le_rfl
  refine ⟨?_, fun i hi => ?_⟩
  · have hcopy := foldl_copyPiece_dcopyPieces (splitCount n n) off dst m hrange (by rwa [hsum])
    rw [hsum] at hcopy
    exact hcopy
  · obtain ⟨count, offset, rfl⟩ := mem_dcopyPieces _ hi
    exact ⟨rfl, rfl⟩

/-- Settles O58: the fields by `parseHeader_of_fields`, the frame size by its two cases. -/
theorem headerFieldsAtTheirOffsets : Obligations.HeaderFieldsAtTheirOffsets := by
  intro h rest hlen hversion hwidth hheight hsize hcount hfile
  exact ⟨parseHeader_of_fields h rest hlen hversion hwidth hheight hsize hcount hfile,
    fun hzero => if_pos hzero, fun hzero => if_neg hzero⟩

end Sys2Proof.Proofs
end

section
/-! PROOFS of the statements about the decoder's turn: which instruction it runs, where the operands of the
data opcodes come from, what they copy, and what every opcode leaves as it was. -/

namespace Sys2Proof.Machine

/-! ### The decoder's turn, case by case -/

/-- A Running block runs the instruction it fetches (40_data_opcodes.md R100). -/
theorem decoderStep_of_fetchInstr {s : State} {i : Instr} (hs : s.fsm = .running)
    (hi : fetchInstr s = some i) : decoderStep s = exec i s := by
  simp only [decoderStep, hs, if_true, hi]

/-- A Running block that can fetch nothing raises E_STREAM (20_memory.md R57). -/
theorem decoderStep_of_fetchInstr_none {s : State} (hs : s.fsm = .running)
    (hi : fetchInstr s = none) : decoderStep s = .next (decodeError .stream s) := by
  simp only [decoderStep, hs, if_true, hi]

/-- A block that is not Running holds its state (10_state.md R34). -/
theorem decoderStep_of_not_running {s : State} (hs : s.fsm ≠ .running) : decoderStep s = .next s :=
  if_neg hs

/-! ### The instruction at `RP` -/

/-- The encoding of a well-formed instruction in the stream at `RP` is fetched as that instruction
(30_encoding.md R88). -/
theorem fetchInstr_of_encode {s : State} {i : Instr} (hwf : i.wf = true)
    (hlen : s.rp.toNat + (encode i).length ≤ s.slenL.toNat)
    (hbytes : ∀ k (h : k < (encode i).length), readStream s (s.rp.toNat + k) = (encode i)[k]) :
    fetchInstr s = some i := by
  have hdecode := decode_encode i [] hwf
  rw [List.append_nil] at hdecode
  exact fetchInstr_of_decode hlen (readStreamRun_eq hbytes) hdecode

/-- An opcode whose bytes are in the stream is fetched, and it is of its word's class (30_encoding.md
R83). -/
theorem fetchInstr_of_length {s : State}
    (h : s.rp.toNat + opcodeLength (readStreamWord s s.rp.toNat) ≤ s.slenL.toNat) :
    ∃ i, fetchInstr s = some i ∧ classOf i = classify (readStreamWord s s.rp.toNat) := by
  have htwo := two_le_opcodeLength (readStreamWord s s.rp.toNat)
  cases hi : fetchInstr s with
  | none => have := fetchInstr_eq_none.1 hi; omega
  | some i =>
    obtain ⟨-, -, hclass, -⟩ := fetchInstr_eq_some hi
    exact ⟨i, rfl, hclass.symm⟩

/-- A LIT is fetched with the bytes after its command word (40_data_opcodes.md R102). -/
theorem fetchInstr_of_lit {s : State} (hc : classify (readStreamWord s s.rp.toNat) = .lit)
    (h : s.rp.toNat + (2 + countOf (countField (readStreamWord s s.rp.toNat))) ≤ s.slenL.toNat) :
    fetchInstr s = some (.lit (readStreamRun s (s.rp.toNat + 2)
      (countOf (countField (readStreamWord s s.rp.toNat))))) := by
  have hlen := opcodeLength_lit hc
  rw [countOf] at h
  obtain ⟨i, hi, hclass⟩ := fetchInstr_of_length (s := s) (by omega)
  have hop := fetchInstr_operands hi
  cases i with
  | lit payload => rw [hi, hop]
  | skip | dcopy | bskip | eof | eoa | reserved => rw [hc] at hclass; cases hclass

/-- A SKIP is fetched with the count field of its command word (40_data_opcodes.md R107). -/
theorem fetchInstr_of_skip {s : State} (hc : classify (readStreamWord s s.rp.toNat) = .skip)
    (h : s.rp.toNat + 2 ≤ s.slenL.toNat) :
    fetchInstr s = some (.skip (countField (readStreamWord s s.rp.toNat))) := by
  have hlen : opcodeLength (readStreamWord s s.rp.toNat) = 2 :=
    opcodeLength_short (by simp [hc]) (by simp [hc])
  obtain ⟨i, hi, hclass⟩ := fetchInstr_of_length (by rwa [hlen])
  have hop := fetchInstr_operands hi
  cases i with
  | skip count => rw [hi, hop]
  | lit | dcopy | bskip | eof | eoa | reserved => rw [hc] at hclass; cases hclass

/-- A DCOPY is fetched with the word after its command word (40_data_opcodes.md R112). -/
theorem fetchInstr_of_dcopy {s : State} (hc : classify (readStreamWord s s.rp.toNat) = .dcopy)
    (h : s.rp.toNat + 4 ≤ s.slenL.toNat) :
    fetchInstr s = some (.dcopy (countField (readStreamWord s s.rp.toNat))
      (readStreamWord s (s.rp.toNat + 2))) := by
  have hlen := opcodeLength_dcopy hc
  obtain ⟨i, hi, hclass⟩ := fetchInstr_of_length (by rwa [hlen])
  have hop := fetchInstr_operands hi
  cases i with
  | dcopy count offset => rw [hi, hop.1, hop.2]
  | lit | skip | bskip | eof | eoa | reserved => rw [hc] at hclass; cases hclass

/-! ### What a copy does where its source and its destination do not overlap, or coincide -/

/-- A DCOPY whose reads all miss what it has written copies the old bytes (40_data_opcodes.md R115). -/
theorem Completes.dcopy_readCanvas_old {count : BitVec 14} {offset : Word} {s t : State}
    (h : Completes (.dcopy count offset) s t)
    (hsrc : srcOf offset + countOf count ≤ s.cursor.toNat ∨ s.cursor.toNat ≤ srcOf offset)
    (i : Nat) (hi : i < countOf count) :
    readCanvas t (s.cursor.toNat + i) = readCanvas s (srcOf offset + i) := by
  rw [h.dcopy_readCanvas i hi, if_neg (by omega)]

/-- A DCOPY from the cursor changes no byte (40_data_opcodes.md R115). -/
theorem Completes.dcopy_readCanvas_self {count : BitVec 14} {offset : Word} {s t : State}
    (h : Completes (.dcopy count offset) s t) (hsrc : srcOf offset = s.cursor.toNat) (j : Nat) :
    readCanvas t j = readCanvas s j := by
  by_cases hj : s.cursor.toNat ≤ j ∧ j < s.cursor.toNat + countOf count
  · obtain ⟨i, rfl⟩ := Nat.exists_eq_add_of_le hj.1
    rw [h.dcopy_readCanvas_old (.inr hsrc.ge) i (by omega), hsrc]
  · exact h.readCanvas_outside (i := .dcopy count offset) (by simp only [writeCount]; omega)

/-! ### What an opcode leaves as it was -/

/-- No opcode changes more than the canvas, `CURSOR`, `RP`, `STATE` and the outputs of the end of a run
(20_memory.md R51; 10_state.md R28, R31). -/
theorem exec_frame {i : Instr} {s t : State} (h : exec i s = .next t) :
    t = { s with
      canvas := t.canvas, cursor := t.cursor, rp := t.rp, fsm := t.fsm
      outConsumed := t.outConsumed, outErrCode := t.outErrCode, outErrOffset := t.outErrOffset } := by
  rcases exec_cases h with ⟨code, -, rfl⟩ | hc
  · rfl
  · cases hc <;> rfl

/-- While the run goes on an opcode leaves the outputs of its end as they are (10_state.md R32). -/
theorem exec_outputs_of_running {i : Instr} {s t : State} (h : exec i s = .next t)
    (ht : t.fsm = .running) : t.outConsumed = s.outConsumed ∧ t.outErrCode = s.outErrCode ∧
      t.outErrOffset = s.outErrOffset := by
  rcases exec_cases h with ⟨code, -, rfl⟩ | hc
  · cases ht
  · cases hc with
    | lit | skip | dcopy | bskip => exact ⟨rfl, rfl, rfl⟩
    | eof | eoa => cases ht

/-- An opcode writes no more bytes than it moves the cursor by (40_data_opcodes.md R117). -/
theorem writeCount_le_moveCount (i : Instr) : writeCount i ≤ moveCount i := by
  cases i with
  | lit | dcopy => exact le_rfl
  | skip | bskip | eof | eoa | reserved => exact Nat.zero_le _

/-- A turn of the decoder moves the cursor forward only, and writes no byte that the cursor does not pass
(40_data_opcodes.md R117). -/
theorem decoderStep_sweep {s t : State} (h : decoderStep s = .next t) :
    s.cursor.toNat ≤ t.cursor.toNat ∧
      ∀ j, j < s.cursor.toNat ∨ t.cursor.toNat ≤ j → readCanvas t j = readCanvas s j := by
  rcases decoderStep_cases h with ⟨-, rfl⟩ | ⟨-, code, -, -, rfl⟩ | ⟨-, i, -, hc⟩
  · exact ⟨le_rfl, fun _ _ => rfl⟩
  · exact ⟨le_rfl, fun _ _ => rfl⟩
  · have hcursor := hc.cursor_toNat
    have hcount := writeCount_le_moveCount i
    exact ⟨by omega, fun j hj => hc.readCanvas_outside (by omega)⟩

end Sys2Proof.Machine

namespace Sys2Proof.Proofs
open Sys2Proof Sys2Proof.Machine

/-- Settles O7: `leWord_toNat`. -/
theorem streamWordsAreLittleEndian : Obligations.StreamWordsAreLittleEndian :=
  fun _ _ => leWord_toNat _ _

/-- Settles O8: the bytes are what the fetch answers, before and after the wait is taken. -/
theorem stepRunsTheDecodedInstruction : Obligations.StepRunsTheDecodedInstruction := by
  intro s bytes i hs hlen hbytes hdecode
  have hi := fetchInstr_of_decode hlen hbytes hdecode
  refine ⟨fun hin => ?_, fun rest hin => ?_⟩
  · rw [step_of_empty hin, decoderStep_of_fetchInstr hs hi]
  · rw [step_of_cons hin]
    exact decoderStep_of_fetchInstr hs ((fetchInstr_inbox s rest).trans hi)

/-- Settles O9: the encoding is fetched as the instruction. -/
theorem stepRunsTheEncodedInstruction : Obligations.StepRunsTheEncodedInstruction := by
  intro s i hin hs hwf hlen hbytes
  rw [step_of_empty hin, decoderStep_of_fetchInstr hs (fetchInstr_of_encode hwf hlen hbytes)]

/-- Settles O10: the two conditions are those under which the fetch answers nothing. -/
theorem truncatedOpcodeRaisesStreamError : Obligations.TruncatedOpcodeRaisesStreamError := by
  intro s hin hs hshort
  rw [step_of_empty hin]
  exact decoderStep_of_fetchInstr_none hs (fetchInstr_eq_none.2 hshort)

/-- Settles O11: the turn holds the state, with the wait taken where there is one. -/
theorem blockHoldsWhenNotRunning : Obligations.BlockHoldsWhenNotRunning := by
  intro s hs
  refine ⟨fun hin => ?_, fun rest hin => ?_⟩
  · rw [step_of_empty hin, decoderStep_of_not_running hs]
  · rw [step_of_cons hin]
    exact decoderStep_of_not_running (s := { s with inbox := rest }) hs

/-- Settles O12: the turn has a next state, in which no host move has come up. -/
theorem decoderTurnAlwaysHasNextState : Obligations.DecoderTurnAlwaysHasNextState := by
  intro s hin
  obtain ⟨t, -, hstep, htin, -⟩ := run_succ_of_empty 0 hin
  exact ⟨t, hstep, htin⟩

/-- Settles O16: each opcode is fetched with its operands from the stream and, its checks passing,
completes. -/
theorem dataStepsTakeTheirOperandsFromTheStream :
    Obligations.DataStepsTakeTheirOperandsFromTheStream := by
  intro s hin hs
  rw [step_of_empty hin]
  intro a c w
  rw [← countOf_field w]
  intro n offset
  rw [← srcOf_eq offset]
  intro src crossing
  refine ⟨fun hclass hlen hbank hdest => ?_, fun hclass hlen hbank hdest => ?_,
    fun hclass hlen hbank hdest hsrc => ?_⟩
  · have hlen' : a + (2 + n) ≤ s.slenL.toNat := by omega
    have hcount : (readStreamRun s (a + 2) n).length = n := readStreamRun_length ..
    have h := Completes.lit (payload := readStreamRun s (a + 2) n) (by rwa [hcount])
      (by rw [hcount]; exact crossesBank_false.2 hbank) (by rwa [hcount])
    refine ⟨_, decoderStep_of_completes hs (fetchInstr_of_lit hclass hlen') h, fun i hi => ?_, ?_, ?_⟩
    · rw [h.lit_readCanvas i (by rwa [hcount]), readStreamRun_get]
    · exact h.cursor_toNat.trans (by rw [moveCount, hcount])
    · refine (h.rp_toNat (by omega) nofun).trans ?_
      rw [sizeOfInstr, encodedPayload, hcount, Nat.add_assoc]
  · have h := Completes.skip (count := countField w) (crossesBank_false.2 hbank) hdest
    exact ⟨_, decoderStep_of_completes hs (fetchInstr_of_skip hclass hlen) h,
      readCanvas_congr h.skip_canvas, h.cursor_toNat, h.rp_toNat hlen nofun⟩
  · have h := Completes.dcopy (count := countField w) (offset := offset) hlen
      (crossesBank_false.2 hbank) hdest hsrc
    exact ⟨_, decoderStep_of_completes hs (fetchInstr_of_dcopy hclass hlen) h, h.dcopy_readCanvas,
      h.cursor_toNat, h.rp_toNat (by omega) nofun⟩

/-- Settles O18: the cases without overlap read old bytes only; one behind, the overlap law with period 1. -/
theorem dcopyCornerCases : Obligations.DcopyCornerCases := by
  intro s t count offset _ hexec ht c n src
  have h : Completes (.dcopy count offset) s t := completes_of_exec hexec (by simp [ht])
  refine ⟨fun hsrc => h.dcopy_readCanvas_old (hsrc.imp_right Nat.le_of_lt), h.dcopy_readCanvas_self,
    fun hsrc i hi => ?_⟩
  have hperiod : c - src = 1 := by omega
  have hbefore : src + i % 1 = c - 1 := by omega
  refine (h.dcopy_readCanvas_overlap (by omega) i hi).trans ?_
  rw [hperiod, hbefore]

/-- Settles O21: EOA completes exactly where `BankCheck` passes, with the lemmas that both terminators
share. -/
theorem eoaMeaning : Obligations.EoaMeaning := by
  refine ⟨fun rest => rfl, ?_⟩
  intro s hw hstart a crossing
  refine ⟨fun hc => ?_, fun hc => ?_⟩
  · have h := Completes.eoa (crossesBank_two_false.2 hc)
    have hrp := h.terminator_rp_toNat (.inr rfl) hw
    exact ⟨_, exec_of_completes h, rfl, hrp,
      (h.terminator_consumed (.inr rfl) hw hstart).trans hrp.symm,
      fun j => h.readCanvas_outside (Nat.lt_or_ge j _), h.terminator_frame (.inr rfl)⟩
  · exact exec_control_of_crossing (.inr (.inr rfl)) (crossesBank_two_iff.2 hc)

/-- Settles O27: `exec_frame` for the registers no opcode writes, `exec_outputs_of_running` for the
outputs. -/
theorem opcodesLeaveStreamAndConfiguration : Obligations.OpcodesLeaveStreamAndConfiguration := by
  intro i s t h
  have hout := exec_outputs_of_running h
  have hframe := exec_frame h
  rw [hframe] at hout ⊢
  exact ⟨rfl, rfl, rfl, rfl, rfl, rfl, rfl, rfl, rfl, rfl, rfl, hout⟩

/-- Settles O28: the count of the statement is `writeCount`, and an error leaves the canvas. -/
theorem writesOnlyItsFootprint : Obligations.WritesOnlyItsFootprint := by
  intro i s t hs h n
  have hn : n = writeCount i := by cases i <;> rfl
  rw [hn]
  rcases exec_cases h with ⟨code, -, rfl⟩ | hc
  · exact ⟨fun j _ => rfl, fun _ j => rfl⟩
  · exact ⟨fun j hj => hc.readCanvas_outside hj, fun ht => absurd ht (hc.fsm_ne_error hs)⟩

/-- Settles O29: by induction on the turns, each of which sweeps from the old cursor to the new one. -/
theorem eachCanvasIndexWrittenAtMostOnce : Obligations.EachCanvasIndexWrittenAtMostOnce := by
  intro k
  induction k with
  | zero =>
    intro s t _ hrun
    injection hrun with hrun
    subst hrun
    exact ⟨le_rfl, fun _ _ => rfl⟩
  | succ k ih =>
    intro s t hin hrun
    obtain ⟨u, hu, -, huin, hstep⟩ := run_succ_of_empty k hin
    rw [hstep] at hrun
    obtain ⟨hsu, hkeepsu⟩ := decoderStep_sweep hu
    obtain ⟨hut, hkeeput⟩ := ih u t huin hrun
    refine ⟨hsu.trans hut, fun j hj => ?_⟩
    rw [hkeeput j (by omega), hkeepsu j (by omega)]

/-- Settles O30: an error leaves `CURSOR`, and a completed opcode adds its count. -/
theorem onlyDataOpcodesMoveTheCursor : Obligations.OnlyDataOpcodesMoveTheCursor := by
  intro i s t hs h
  refine ⟨fun ht => ?_, fun ht => ?_⟩
  · rcases exec_cases h with ⟨code, -, rfl⟩ | hc
    · rfl
    · exact absurd ht (hc.fsm_ne_error hs)
  · have hc := completes_of_exec h ht
    cases i with
    | lit | skip | dcopy => exact hc.cursor_toNat
    | bskip | eof | eoa => exact BitVec.eq_of_toNat_eq hc.cursor_toNat
    | reserved => cases hc

end Sys2Proof.Proofs
end

section
/-! PROOFS of the statements about runs of the decoder: one decode is a start and the steps after it, a run
does not see the configuration inputs, and the decoder reads within its bounds. -/

namespace Sys2Proof.Machine

/-! ### One decode -/

/-- A block that is not Running takes no decoder step (70_reset_and_hazards.md R206). -/
theorem runDecoder_of_not_running {s : State} (hs : s.fsm ≠ .running) (fuel : Nat) :
    runDecoder fuel s = .next s := by
  cases fuel with
  | zero => rfl
  | succ fuel => exact if_neg hs

theorem runDecoder_succ {s t : State} (hs : s.fsm = .running) (h : decoderStep s = .next t)
    (fuel : Nat) : runDecoder (fuel + 1) s = runDecoder fuel t := by
  simp only [runDecoder, hs, if_true, h]

theorem ne_running_of_isTerminal {f : FsmState} (h : isTerminal f = true) : f ≠ .running := by
  rintro rfl
  cases h

/-- `t` is the first state on the run from `s` that is terminal, after `k` steps through Running states
(70_reset_and_hazards.md R206). -/
def FirstTerminal (s : State) (k : Nat) (t : State) : Prop :=
  isTerminal t.fsm = true ∧ Host.Core.run Sys2Proof.core k s = .next t ∧
    ∀ j u, j < k → Host.Core.run Sys2Proof.core j s = .next u → u.fsm = .running

theorem FirstTerminal.zero {s : State} (h : isTerminal s.fsm = true) : FirstTerminal s 0 s :=
  ⟨h, rfl, fun _ _ hj => absurd hj (Nat.not_lt_zero _)⟩

theorem FirstTerminal.succ {s u t : State} {k : Nat} (hs : s.fsm = .running) (hstep : step s = .next u)
    (h : FirstTerminal u k t) : FirstTerminal s (k + 1) t := by
  obtain ⟨hterm, hrun, hbefore⟩ := h
  refine ⟨hterm, (run_succ hstep).trans hrun, fun j v hj hv => ?_⟩
  cases j with
  | zero => injection hv with hv; rwa [← hv]
  | succ j => exact hbefore j v (by omega) ((run_succ hstep).symm.trans hv)

/-- With the steps that 70_reset_and_hazards.md R219 allows, `runDecoder` answers the first terminal state. -/
theorem runDecoder_firstTerminal (fuel : Nat) : ∀ {s : State}, s.inbox = [] → s.fsm = .running →
    stepBound s ≤ fuel → ∃ k t, runDecoder fuel s = .next t ∧ FirstTerminal s k t := by
  induction fuel with
  | zero =>
    intro s _ _ hbound
    have hpos : 1 ≤ stepBound s := Nat.le_max_left ..
    omega
  | succ fuel ih =>
    intro s hin hs hbound
    obtain ⟨u, hu, hstep, huin, -⟩ := run_succ_of_empty 0 hin
    rw [runDecoder_succ hs hu]
    rcases decoderStep_terminal_or_stepBound_lt hs hu with hterm | ⟨hurun, hlt⟩
    · exact ⟨1, u, runDecoder_of_not_running (ne_running_of_isTerminal hterm) fuel,
        (FirstTerminal.zero hterm).succ hs hstep⟩
    · obtain ⟨k, t, hrun, hfirst⟩ := ih huin hurun (by omega)
      exact ⟨k + 1, t, hrun, hfirst.succ hs hstep⟩

/-- A start command leaves the host's moves as they are. -/
@[simp] theorem startCommand_inbox (s : State) : (startCommand s).inbox = s.inbox := by
  unfold startCommand
  split_ifs <;> rfl

/-- A start command ends in Error or in Running (70_reset_and_hazards.md R203). -/
theorem startCommand_fsm_cases (s : State) :
    (startCommand s).fsm = .error ∨ (startCommand s).fsm = .running := by
  rw [startCommand_fsm]
  split_ifs
  · exact .inr rfl
  · exact .inl rfl
  · exact .inr rfl

/-! ### Two states under the same checks -/

/-- Two states that pass the same checks are related after them if they are after an error, and after the
effect where no check fails. -/
theorem guarded_rel (R : State → State → Prop) {checks : List (ErrorCode × Bool)} {s s' done done' : State}
    (herror : ∀ code, R (decodeError code s) (decodeError code s'))
    (hdone : (∀ check ∈ checks, check.2 = false) → R done done') :
    R (guarded checks s done) (guarded checks s' done') := by
  induction checks with
  | nil => exact hdone (by simp)
  | cons check checks ih =>
    obtain ⟨code, fails⟩ := check
    cases fails with
    | true => exact herror code
    | false => exact ih fun h => hdone (by simpa using h)

/-! ### What the host may change without the decoder seeing it -/

/-- The state with other configuration inputs and other coming moves of the host. -/
def State.withInputs (s : State) (size : BitVec 17) (len start : BitVec 32) (strict : Bool)
    (inbox : List HostMove) : State :=
  { s with
    cfgFrameSize := size, cfgStreamLen := len, cfgStart := start, cfgStrictBanks := strict
    inbox := inbox }

section
variable (size : BitVec 17) (len start : BitVec 32) (strict : Bool) (inbox : List HostMove)

/-- No opcode sees the configuration inputs or the host's coming moves (10_state.md R28, R31). -/
theorem exec_withInputs (i : Instr) {s t : State} (h : exec i s = .next t) :
    exec i (s.withInputs size len start strict inbox) =
      .next (t.withInputs size len start strict inbox) := by
  cases i with
  | lit | skip | dcopy | bskip | eof | eoa =>
    injection h with h
    subst h
    exact congrArg Host.Outcome.next (guarded_rel
      (fun u u' => u' = u.withInputs size len start strict inbox) (fun _ => rfl) (fun _ => rfl))
  | reserved =>
    injection h with h
    subst h
    rfl

theorem fetchInstr_withInputs (s : State) :
    fetchInstr (s.withInputs size len start strict inbox) = fetchInstr s :=
  fetchInstr_congr rfl rfl (fun _ _ => rfl)

/-- Nor does a turn of the decoder. -/
theorem decoderStep_withInputs {s t : State} (h : decoderStep s = .next t) :
    decoderStep (s.withInputs size len start strict inbox) =
      .next (t.withInputs size len start strict inbox) := by
  have hfetch := fetchInstr_withInputs size len start strict inbox s
  by_cases hs : s.fsm = .running
  · have hs' : (s.withInputs size len start strict inbox).fsm = .running := hs
    cases hi : fetchInstr s with
    | some i =>
      rw [decoderStep_of_fetchInstr hs hi] at h
      rw [decoderStep_of_fetchInstr hs' (hfetch.trans hi), exec_withInputs size len start strict inbox i h]
    | none =>
      rw [decoderStep_of_fetchInstr_none hs hi] at h
      rw [decoderStep_of_fetchInstr_none hs' (hfetch.trans hi)]
      injection h with h
      subst h
      rfl
  · rw [decoderStep_of_not_running hs] at h
    injection h with h
    subst h
    exact decoderStep_of_not_running (s := s.withInputs size len start strict inbox) hs

/-- Nor does a run of the decoder alone. -/
theorem run_withInputs (k : Nat) : ∀ {s t : State}, s.inbox = [] →
    Host.Core.run Sys2Proof.core k s = .next t →
    Host.Core.run Sys2Proof.core k (s.withInputs size len start strict s.inbox) =
      .next (t.withInputs size len start strict t.inbox) := by
  induction k with
  | zero =>
    intro s t _ hrun
    injection hrun with hrun
    subst hrun
    rfl
  | succ k ih =>
    intro s t hin hrun
    obtain ⟨u, hu, -, huin, hstep⟩ := run_succ_of_empty k hin
    rw [hstep] at hrun
    have hstep' : step (s.withInputs size len start strict s.inbox) =
        .next (u.withInputs size len start strict u.inbox) := by
      rw [huin, ← hin, step_of_empty (s := s.withInputs size len start strict s.inbox) hin]
      exact decoderStep_withInputs size len start strict s.inbox hu
    exact (run_succ hstep').trans (ih huin hrun)

end

/-! ### Memories that agree within the bounds -/

/-- The state with other memories. -/
def State.withMemories (s : State) (stream canvas : Memory) : State :=
  { s with stream := stream, canvas := canvas }

/-- `u'` is `u` with the given stream, and with a canvas that agrees with its own below `bound`. -/
def AgreesBelow (stream : Memory) (bound : Nat) (u u' : State) : Prop :=
  ∃ canvas, u' = u.withMemories stream canvas ∧
    ∀ j, j < bound → canvasByte canvas j = readCanvas u j

/-- An opcode makes of memories that agree within the bounds memories that do: it reads nothing else
(20_memory.md R58). -/
theorem exec_agreesBelow (i : Instr) {s t : State} {stream canvas : Memory}
    (hcanvas : ∀ j, j < s.fsizeL.toNat → canvasByte canvas j = readCanvas s j)
    (h : exec i s = .next t) : ∃ t', exec i (s.withMemories stream canvas) = .next t' ∧
      AgreesBelow stream s.fsizeL.toNat t t' := by
  have herror : ∀ code, AgreesBelow stream s.fsizeL.toNat (decodeError code s)
      (decodeError code (s.withMemories stream canvas)) :=
    fun code => ⟨canvas, rfl, hcanvas⟩
  cases i with
  | lit payload =>
    injection h with h
    subst h
    exact ⟨_, rfl, guarded_rel _ herror fun _ =>
      ⟨_, rfl, canvasByte_storeRun_congr payload _ _ _ _ hcanvas⟩⟩
  | dcopy count offset =>
    injection h with h
    subst h
    refine ⟨_, rfl, guarded_rel _ herror fun hchecks => ⟨_, rfl, ?_⟩⟩
    have hsrc := hchecks (.src, srcOverrun (s.withMemories stream canvas) (srcOf offset) (countOf count))
      (by simp)
    exact canvasByte_copyForward_congr _ _ _ _ _ _ (srcOverrun_false.1 hsrc) hcanvas
  | skip | eof | eoa =>
    injection h with h
    subst h
    exact ⟨_, rfl, guarded_rel _ herror fun _ => ⟨canvas, rfl, hcanvas⟩⟩
  | bskip =>
    injection h with h
    subst h
    exact ⟨_, rfl, guarded_rel _ herror fun _ =>
      ⟨canvas, rfl, fun j hj => (hcanvas j hj).trans (readCanvas_congr (by rfl) j).symm⟩⟩
  | reserved =>
    injection h with h
    subst h
    exact ⟨_, rfl, herror .reserved⟩

/-- So does a turn of the decoder, for streams that agree below `SLEN_L` (20_memory.md R57, R58). -/
theorem decoderStep_agreesBelow {s t : State} {stream canvas : Memory}
    (hstream : ∀ a, a < s.slenL.toNat → streamByte stream a = readStream s a)
    (hcanvas : ∀ j, j < s.fsizeL.toNat → canvasByte canvas j = readCanvas s j)
    (h : decoderStep s = .next t) :
    ∃ t', decoderStep (s.withMemories stream canvas) = .next t' ∧
      AgreesBelow stream s.fsizeL.toNat t t' := by
  have hfetch : fetchInstr (s.withMemories stream canvas) = fetchInstr s :=
    fetchInstr_congr rfl rfl hstream
  by_cases hs : s.fsm = .running
  · have hs' : (s.withMemories stream canvas).fsm = .running := hs
    cases hi : fetchInstr s with
    | some i =>
      rw [decoderStep_of_fetchInstr hs hi] at h
      rw [decoderStep_of_fetchInstr hs' (hfetch.trans hi)]
      exact exec_agreesBelow i hcanvas h
    | none =>
      rw [decoderStep_of_fetchInstr_none hs hi] at h
      rw [decoderStep_of_fetchInstr_none hs' (hfetch.trans hi)]
      injection h with h
      subst h
      exact ⟨_, rfl, canvas, rfl, hcanvas⟩
  · rw [decoderStep_of_not_running hs] at h
    injection h with h
    subst h
    exact ⟨_, decoderStep_of_not_running (s := s.withMemories stream canvas) hs, canvas, rfl, hcanvas⟩

end Sys2Proof.Machine

namespace Sys2Proof.Proofs
open Sys2Proof Sys2Proof.Machine

/-- Settles O36: a start that fails is terminal at once, and one that succeeds is run to the first terminal
state. -/
theorem oneDecodeIsStartThenSteps : Obligations.OneDecodeIsStartThenSteps := by
  intro s hin _
  rcases startCommand_fsm_cases s with herror | hrun
  · have hterm : isTerminal (startCommand s).fsm = true := by rw [herror]; rfl
    exact ⟨0, _, runDecoder_of_not_running (ne_running_of_isTerminal hterm) _,
      FirstTerminal.zero hterm⟩
  · exact runDecoder_firstTerminal _ ((startCommand_inbox s).trans hin) hrun le_rfl

/-- Settles O37: `run_withInputs`, with the host's moves left as they are. -/
theorem runIgnoresConfigurationInputs : Obligations.RunIgnoresConfigurationInputs :=
  fun k _ _ size len start strict => run_withInputs size len start strict k

/-- Settles O38: the turns of `decoderStep_agreesBelow` are the steps where the host has no move. -/
theorem decoderReadsOnlyWithinBounds : Obligations.DecoderReadsOnlyWithinBounds := by
  intro s t stream canvas hin hstream hcanvas hstep
  rw [step_of_empty hin] at hstep
  obtain ⟨t', hstep', canvas', rfl, hagree⟩ := decoderStep_agreesBelow hstream hcanvas hstep
  exact ⟨canvas', (step_of_empty (s := s.withMemories stream canvas) hin).trans hstep', hagree⟩

end Sys2Proof.Proofs
end

section
/-! PROOFS of the statements about the host's moves and of the invariant of the machine: loads, writes of
the configuration, the status outputs, a reset inside an opcode, and that every step keeps `Inv`. -/

namespace Sys2Proof.Machine

/-! ### Host accesses and status outputs -/

/-- A host access to an address that exists, the block not Running, has its effect. -/
theorem hostAccess_of_present {present : Bool} {s : State} (hs : s.fsm ≠ .running)
    (h : present = true) (missing : Fault) (after : State) :
    hostAccess present missing s after = .next after :=
  (if_neg hs).trans (if_pos h)

/-- A host access while Running is refused (70_reset_and_hazards.md R215). -/
theorem hostAccess_of_running {s : State} (hs : s.fsm = .running) (present : Bool) (missing : Fault)
    (after : State) : hostAccess present missing s after = .refused .hostTouchesMemoryWhileRunning :=
  if_pos hs

theorem isTerminal_iff (f : FsmState) :
    isTerminal f = true ↔ f = .endOfFrame ∨ f = .endOfAnimation ∨ f = .error := by
  cases f <;> decide

/-! ### A reset inside an opcode -/

/-- The opcode in progress writes its count where it would complete, and nothing otherwise
(70_reset_and_hazards.md R200). -/
theorem inProgressCount_cases (s : State) : inProgressCount s = 0 ∨ ∃ i t, s.fsm = .running ∧
    fetchInstr s = some i ∧ Completes i s t ∧ inProgressCount s = writeCount i := by
  by_cases hs : s.fsm = .running
  · cases hi : fetchInstr s with
    | none => exact .inl (by simp only [inProgressCount, hs, if_true, hi])
    | some i =>
      obtain ⟨t, ht⟩ := exec_next i s
      have hcount : inProgressCount s = if t.fsm = .error then 0 else writeCount i := by
        simp only [inProgressCount, hs, if_true, hi, ht]
      by_cases herror : t.fsm = .error
      · exact .inl (by rw [hcount, if_pos herror])
      · exact .inr ⟨i, t, hs, rfl, completes_of_exec ht herror, by rw [hcount, if_neg herror]⟩
  · exact .inl (if_neg hs)

theorem inProgressCount_of_not_running {s : State} (hs : s.fsm ≠ .running) : inProgressCount s = 0 :=
  (inProgressCount_cases s).resolve_right fun ⟨_, _, hrun, _⟩ => hs hrun

theorem inProgressCount_of_fetchInstr_none {s : State} (h : fetchInstr s = none) :
    inProgressCount s = 0 :=
  (inProgressCount_cases s).resolve_right fun ⟨_, _, _, hi, _⟩ => by simp [h] at hi

theorem inProgressCount_of_error {s t : State} {i : Instr} (hi : fetchInstr s = some i)
    (hexec : exec i s = .next t) (ht : t.fsm = .error) : inProgressCount s = 0 := by
  refine (inProgressCount_cases s).resolve_right fun ⟨i', t', hs, hi', hc, _⟩ => ?_
  obtain rfl : i = i' := Option.some.inj (hi.symm.trans hi')
  rw [exec_of_completes hc] at hexec
  injection hexec with hexec
  exact hc.fsm_ne_error hs (by rw [hexec, ht])

theorem inProgressCount_le {s : State} {i : Instr} (hi : fetchInstr s = some i) :
    inProgressCount s ≤ writeCount i := by
  rcases inProgressCount_cases s with hzero | ⟨i', t, -, hi', -, hcount⟩
  · rw [hzero]; exact Nat.zero_le _
  · obtain rfl : i = i' := Option.some.inj (hi.symm.trans hi')
    rw [hcount]

theorem resetInside_canvas (s : State) : (resetInside s).canvas =
    storeRun s.canvas s.cursor.toNat (drawBytes s.draws (inProgressCount s)) := rfl

/-- Where no opcode is in progress a reset inside one keeps the canvas. -/
theorem resetInside_canvas_of_zero {s : State} (h : inProgressCount s = 0) :
    (resetInside s).canvas = s.canvas := by
  rw [resetInside_canvas, h]
  rfl

/-- A reset inside an opcode keeps every byte that is not one of the opcode's (70_reset_and_hazards.md
R200). -/
theorem readCanvas_resetInside {s : State} {j : Nat}
    (h : j < s.cursor.toNat ∨ s.cursor.toNat + inProgressCount s ≤ j) :
    readCanvas (resetInside s) j = readCanvas s j :=
  canvasByte_storeRun_outside _ _ _ _ (by rwa [drawBytes_length])

/-! ### What the invariant says of a Running block -/

theorem Inv.outErrCode_eq {s : State} (h : Inv s) (hs : s.fsm ≠ .error) : s.outErrCode = .none :=
  Classical.not_not.1 fun hcode => hs (h.errorCodeInError.1 hcode)

theorem Inv.outErrOffset_eq {s : State} (h : Inv s) (hs : s.fsm ≠ .error) : s.outErrOffset = 0 :=
  h.errorOffset.trans (if_neg hs)

theorem Inv.fsizeL_le {s : State} (h : Inv s) (hs : s.fsm ≠ .error) : s.fsizeL.toNat ≤ 65536 := by
  refine Nat.le_of_not_lt fun hlt => ?_
  have hconfig := h.oversizeIsConfigError.1 hlt
  rw [h.outErrCode_eq hs] at hconfig
  cases hconfig

theorem Inv.outConsumed_eq {s : State} (h : Inv s) (hs : s.fsm = .running) :
    s.outConsumed.toNat = 0 := by
  have hconsumed := h.consumedCount
  rwa [hs, if_neg (by decide)] at hconsumed

/-! ### The invariant after each kind of move -/

/-- The invariant does not speak of the configuration inputs or of the host's coming moves. -/
theorem Inv.withInputs {s : State} (h : Inv s) (size : BitVec 17) (len start : BitVec 32)
    (strict : Bool) (inbox : List HostMove) : Inv (s.withInputs size len start strict inbox) :=
  { h with }

/-- An error keeps the invariant, `RP` being the offset it records (60_exceptions.md R184). -/
theorem Inv.decodeError {s : State} (h : Inv s) (hs : s.fsm = .running) {code : ErrorCode}
    (hnone : code ≠ .none) (hconfig : code ≠ .config) : Inv (decodeError code s) :=
  { h with
    oversizeIsConfigError := iff_of_false (Nat.not_lt.2 (h.fsizeL_le (by simp [hs]))) hconfig
    errorCodeInError := iff_of_true hnone rfl
    errorOffset := rfl
    consumedCount := h.outConsumed_eq hs }

/-- Moving on within a run keeps the invariant while the canvas, `CURSOR` and `RP` stay in their ranges. -/
theorem Inv.moved {s : State} (h : Inv s) {canvas : Memory} {cursor : BitVec 17} {rp : BitVec 33}
    (hs : s.fsm = .running) (hwf : Memory.wf canvas)
    (hspace : ∀ cell ∈ canvas, cell.1 < Config.maxFrameSize) (hcursor : cursor.toNat ≤ s.fsizeL.toNat)
    (hrp : rp.toNat ≤ 2 ^ 32) (hstart : s.startL.toNat ≤ rp.toNat) :
    Inv { s with canvas := canvas, cursor := cursor, rp := rp } :=
  { h with
    canvasWf := hwf
    canvasInSpace := hspace
    cursorInFrame := hcursor
    rpInRange := hrp
    startBeforeRp := hstart
    errorOffset := by simpa [hs] using h.outErrOffset_eq (by simp [hs])
    consumedCount := by simpa [hs] using h.outConsumed_eq hs }

/-- The end of a run keeps the invariant (41_control_opcodes.md R135). -/
theorem Inv.endRun {s : State} (h : Inv s) (hs : s.fsm = .running) {terminal : FsmState}
    (hterm : terminal = .endOfFrame ∨ terminal = .endOfAnimation)
    (hw : s.rp.toNat + 2 ≤ s.slenL.toNat) : Inv (endRun terminal s) := by
  have hrp : (Machine.endRun terminal s).rp.toNat = s.rp.toNat + 2 := advance_rp_toNat (n := 0) hw
  have hne : terminal ≠ .error := by rcases hterm with rfl | rfl <;> decide
  have hlen := s.slenL.isLt
  have hstart := h.startBeforeRp
  exact { h with
    rpInRange := by rw [hrp]; omega
    startBeforeRp := by rw [hrp, endRun_startL]; omega
    errorCodeInError := iff_of_false (by simp [h.outErrCode_eq, hs]) hne
    errorOffset := by rw [endRun_fsm, if_neg hne]; exact h.outErrOffset_eq (by simp [hs])
    consumedCount := by
      rw [endRun_outConsumed_toNat terminal hw, hrp, endRun_fsm, endRun_startL, if_pos hterm] }

/-- An opcode that completes does not move `CURSOR` past the canvas (10_state.md R25). -/
theorem Completes.cursor_add_le {i : Instr} {s t : State} (h : Completes i s t)
    (hcursor : s.cursor.toNat ≤ s.fsizeL.toNat) : s.cursor.toNat + moveCount i ≤ s.fsizeL.toNat := by
  cases h with
  | lit _ _ inFrame | skip _ inFrame | dcopy _ _ inFrame => exact inFrame
  | bskip | eof | eoa => exact hcursor

/-- An opcode that completes does not move `RP` past 2^32 (10_state.md R26). -/
theorem Completes.rp_le {i : Instr} {s t : State} (h : Completes i s t)
    (hw : s.rp.toNat + 2 ≤ s.slenL.toNat) (hsize : s.rp.toNat + sizeOfInstr i ≤ s.slenL.toNat) :
    t.rp.toNat ≤ 2 ^ 32 := by
  have hlen := s.slenL.isLt
  by_cases hi : i = .bskip
  · subst hi
    have hrp := h.bskip_rp_toNat hw
    omega
  · have hrp := h.rp_toNat hw hi
    omega

/-- An opcode that completes keeps the invariant. -/
theorem Inv.completes {i : Instr} {s t : State} (h : Inv s) (hs : s.fsm = .running)
    (hi : fetchInstr s = some i) (hc : Completes i s t) : Inv t := by
  obtain ⟨hw, hsize, -⟩ := fetchInstr_eq_some hi
  have hcursor : t.cursor.toNat ≤ s.fsizeL.toNat :=
    hc.cursor_toNat.trans_le (hc.cursor_add_le h.cursorInFrame)
  have hrp := hc.rp_le hw hsize
  have hstart : s.startL.toNat ≤ t.rp.toNat := h.startBeforeRp.trans (hc.rp_lt hw).le
  have hframe := h.fsizeL_le (by simp [hs])
  cases hc with
  | lit _ _ inFrame =>
    exact h.moved hs (storeRun_wf _ _ h.canvasWf)
      (storeRun_inSpace _ _ h.canvasInSpace (inFrame.trans hframe)) hcursor hrp hstart
  | dcopy _ _ inFrame =>
    exact h.moved hs (copyForward_wf _ _ _ h.canvasWf)
      (copyForward_inSpace _ _ _ h.canvasInSpace (inFrame.trans hframe)) hcursor hrp hstart
  | skip | bskip => exact h.moved hs h.canvasWf h.canvasInSpace hcursor hrp hstart
  | eof => exact h.endRun hs (.inl rfl) hw
  | eoa => exact h.endRun hs (.inr rfl) hw

/-- The decoder's turn keeps the invariant. -/
theorem Inv.decoderStep {s t : State} (h : Inv s) (hstep : decoderStep s = .next t) : Inv t := by
  rcases decoderStep_cases hstep with ⟨-, rfl⟩ | ⟨hs, code, hnone, hconfig, rfl⟩ | ⟨hs, i, hi, hc⟩
  · exact h
  · exact h.decodeError hs hnone hconfig
  · exact h.completes hs hi hc

/-- A start command keeps the invariant: `RP` is where the run starts, and a canvas above 65536 bytes is
latched with E_CONFIG alone (70_reset_and_hazards.md R203, R204). -/
theorem Inv.startCommand {s : State} (h : Inv s) : Inv (startCommand s) := by
  have hrp : (s.cfgStart.setWidth 33).toNat = s.cfgStart.toNat :=
    BitVec.toNat_setWidth_of_le (by omega)
  have hrange := s.cfgStart.isLt
  by_cases hs : s.fsm = .running
  · rwa [startCommand_of_running hs]
  · by_cases hsize : 65536 < s.cfgFrameSize.toNat
    · rw [startCommand_of_too_large hs hsize]
      exact { h with
        cursorInFrame := Nat.zero_le _
        rpInRange := hrp.trans_le hrange.le
        startBeforeRp := hrp.ge
        oversizeIsConfigError := iff_of_true hsize rfl
        errorCodeInError := iff_of_true nofun rfl
        errorOffset := rfl
        consumedCount := rfl }
    · rw [startCommand_of_fits hs (Nat.le_of_not_lt hsize)]
      exact { h with
        cursorInFrame := Nat.zero_le _
        rpInRange := hrp.trans_le hrange.le
        startBeforeRp := hrp.ge
        oversizeIsConfigError := iff_of_false hsize nofun
        errorCodeInError := iff_of_false (fun hcode => hcode rfl) nofun
        errorOffset := rfl
        consumedCount := rfl }

/-- A reset establishes the invariant from the memories alone (10_state.md R33). -/
theorem inv_applyReset {s : State} (hstreamWf : Memory.wf s.stream) (hcanvasWf : Memory.wf s.canvas)
    (hstream : ∀ cell ∈ s.stream, cell.1 < Config.maxStreamLen)
    (hcanvas : ∀ cell ∈ s.canvas, cell.1 < Config.maxFrameSize) : Inv (applyReset s) where
  streamWf := hstreamWf
  canvasWf := hcanvasWf
  streamInSpace := hstream
  canvasInSpace := hcanvas
  cursorInFrame := le_rfl
  rpInRange := Nat.zero_le _
  startBeforeRp := le_rfl
  oversizeIsConfigError := iff_of_false (Nat.not_lt_zero _) nofun
  errorCodeInError := iff_of_false (fun hcode => hcode rfl) nofun
  errorOffset := rfl
  consumedCount := rfl

/-- The bytes of an opcode in progress lie within the canvas space (20_memory.md R50). -/
theorem Inv.cursor_add_inProgressCount_le {s : State} (h : Inv s) (hpos : inProgressCount s ≠ 0) :
    s.cursor.toNat + inProgressCount s ≤ 65536 := by
  obtain ⟨i, t, hs, -, hc, hcount⟩ := (inProgressCount_cases s).resolve_left hpos
  have hfits := hc.cursor_add_le h.cursorInFrame
  have hframe := h.fsizeL_le (by simp [hs])
  have hmoves := writeCount_le_moveCount i
  omega

/-- A reset inside an opcode keeps the invariant. -/
theorem Inv.resetInside {s : State} (h : Inv s) : Inv (resetInside s) := by
  refine inv_applyReset h.streamWf (storeRun_wf _ _ h.canvasWf) h.streamInSpace ?_
  by_cases hzero : inProgressCount s = 0
  · rw [hzero]
    exact h.canvasInSpace
  · exact storeRun_inSpace _ _ h.canvasInSpace
      (by rw [drawBytes_length]; exact h.cursor_add_inProgressCount_le hzero)

theorem Inv.loadStream {s : State} (h : Inv s) {a : Nat} (ha : a < Config.maxStreamLen) (v : Byte) :
    Inv { s with stream := store s.stream a v } :=
  { h with
    streamWf := store_wf h.streamWf a v
    streamInSpace := store_inSpace h.streamInSpace ha v }

theorem Inv.loadCanvas {s : State} (h : Inv s) {a : Nat} (ha : a < Config.maxFrameSize) (v : Byte) :
    Inv { s with canvas := store s.canvas a v } :=
  { h with
    canvasWf := store_wf h.canvasWf a v
    canvasInSpace := store_inSpace h.canvasInSpace ha v }

/-- A host access that has a next state was to an address that exists. -/
theorem hostAccess_next_present {present : Bool} {missing : Fault} {s after t : State}
    (h : hostAccess present missing s after = .next t) : present = true := by
  unfold hostAccess at h
  split_ifs at h
  assumption

/-- Every move of the host keeps the invariant, a decoder's turn among them. -/
theorem Inv.hostTurn {move : HostMove} {s t : State} (h : Inv s) (hturn : hostTurn move s = .next t) :
    Inv t := by
  cases move with
  | wait => exact h.decoderStep hturn
  | writeFrameSize v =>
    injection hturn with hturn
    exact hturn ▸ h.withInputs v s.cfgStreamLen s.cfgStart s.cfgStrictBanks s.inbox
  | writeStreamLen v =>
    injection hturn with hturn
    exact hturn ▸ h.withInputs s.cfgFrameSize v s.cfgStart s.cfgStrictBanks s.inbox
  | writeStart v =>
    injection hturn with hturn
    exact hturn ▸ h.withInputs s.cfgFrameSize s.cfgStreamLen v s.cfgStrictBanks s.inbox
  | writeStrictBanks v =>
    injection hturn with hturn
    exact hturn ▸ h.withInputs s.cfgFrameSize s.cfgStreamLen s.cfgStart v s.inbox
  | loadStream a v =>
    obtain rfl := hostAccess_next hturn
    exact h.loadStream (of_decide_eq_true (hostAccess_next_present hturn)) v
  | loadCanvas a v =>
    obtain rfl := hostAccess_next hturn
    exact h.loadCanvas (of_decide_eq_true (hostAccess_next_present hturn)) v
  | start =>
    injection hturn with hturn
    exact hturn ▸ h.startCommand
  | readOutputs =>
    injection hturn with hturn
    exact hturn ▸ h
  | readCanvas | readStream =>
    obtain rfl := hostAccess_next hturn
    exact h
  | reset =>
    injection hturn with hturn
    exact hturn ▸ inv_applyReset h.streamWf h.canvasWf h.streamInSpace h.canvasInSpace
  | resetMidOpcode =>
    injection hturn with hturn
    exact hturn ▸ h.resetInside

/-- Every step keeps the invariant. -/
theorem Inv.step {s t : State} (h : Inv s) (hstep : step s = .next t) : Inv t := by
  cases hin : s.inbox with
  | nil =>
    rw [step_of_empty hin] at hstep
    exact h.decoderStep hstep
  | cons move rest =>
    rw [step_of_cons hin] at hstep
    exact (h.withInputs s.cfgFrameSize s.cfgStreamLen s.cfgStart s.cfgStrictBanks rest).hostTurn hstep

end Sys2Proof.Machine

namespace Sys2Proof.Proofs
open Sys2Proof Sys2Proof.Machine

/-- Settles O33: by the host's moves and the decoder's turn, each with its lemma. -/
theorem everyStepKeepsTheInvariant : Obligations.EveryStepKeepsTheInvariant :=
  fun _ _ => Inv.step

/-- Settles O34: the reset state has empty memories. -/
theorem resetMeetsTheInvariant : Obligations.ResetMeetsTheInvariant :=
  inv_applyReset (s := State.reset) .nil .nil nofun nofun

/-- Settles O42: the canvas differs from before within the count in progress only, which is 0 where the
opcode does not complete. -/
theorem resetInsideAnOpcodeTouchesOnlyItsBytes :
    Obligations.ResetInsideAnOpcodeTouchesOnlyItsBytes := by
  intro s rest hin
  have hfetch := fetchInstr_inbox s rest
  refine ⟨resetInside { s with inbox := rest }, step_of_cons hin, rfl, rfl, fun hs => ?_, fun hi => ?_,
    fun i hi => ⟨fun j hj => ?_, fun ⟨code, herror⟩ => ?_⟩⟩
  · exact resetInside_canvas_of_zero
      (inProgressCount_of_not_running (s := { s with inbox := rest }) hs)
  · exact resetInside_canvas_of_zero (inProgressCount_of_fetchInstr_none (hfetch.trans hi))
  · have hcount := inProgressCount_le (hfetch.trans hi)
    exact readCanvas_resetInside (s := { s with inbox := rest })
      (hj.imp_right ((Nat.add_le_add_left hcount _).trans ·))
  · have herror' := exec_withInputs s.cfgFrameSize s.cfgStreamLen s.cfgStart s.cfgStrictBanks rest i herror
    exact resetInside_canvas_of_zero (inProgressCount_of_error (hfetch.trans hi) herror' rfl)

/-- Settles O43: each write is its one update of the state. -/
theorem configurationWritesHold : Obligations.ConfigurationWritesHold :=
  fun _ _ => ⟨fun _ => step_of_cons, fun _ => step_of_cons, fun _ => step_of_cons,
    fun _ => step_of_cons⟩

/-- Settles O44: the load is a store to its memory, which reads back at its address alone. -/
theorem hostLoadsReadBack : Obligations.HostLoadsReadBack := by
  intro s rest a v hs
  refine ⟨fun hin ha => ?_, fun hin ha => ?_⟩
  · refine ⟨{ s with inbox := rest, stream := store s.stream a v }, ?_, streamByte_store_same ..,
      fun b hb => streamByte_store_other _ _ hb, rfl⟩
    rw [step_of_cons hin]
    exact hostAccess_of_present (s := { s with inbox := rest }) hs (decide_eq_true ha) _ _
  · refine ⟨{ s with inbox := rest, canvas := store s.canvas a v }, ?_, canvasByte_store_same ..,
      fun b hb => canvasByte_store_other _ _ hb, rfl⟩
    rw [step_of_cons hin]
    exact hostAccess_of_present (s := { s with inbox := rest }) hs (decide_eq_true ha) _ _

/-- Settles O45: each of the four moves is a host access. -/
theorem hostMemoryAccessWhileRunningIsRefused :
    Obligations.HostMemoryAccessWhileRunningIsRefused := by
  intro s rest a v hs hin
  rcases hin with hin | hin | hin | hin <;> rw [step_of_cons hin] <;>
    exact hostAccess_of_running (s := { s with inbox := rest }) hs _ _ _

/-- Settles O46: the encodings value by value; the mirrors are the registers. -/
theorem statusOutputsMirrorTheRegisters : Obligations.StatusOutputsMirrorTheRegisters := by
  intro s
  refine ⟨?_, ?_, isTerminal_iff s.fsm, rfl, rfl, rfl, rfl, fun _ => step_of_cons⟩
  · simp only [readOutputs]
    cases s.fsm <;> rfl
  · simp only [readOutputs]
    cases s.outErrCode <;> rfl

end Sys2Proof.Proofs
end

section
/-! PROOFS of the statements about 45_matcher.md: the lengths are longest prefixes, every answer conforms, the
reference Matcher takes the first candidate, and what lies past the extent is not read. -/

namespace Sys2Proof.Machine

/-! ### The lengths and the candidates, said without the search loops -/

theorem isLongestPrefix_agreeRun {agree : Nat → Bool} {P : Nat → Prop}
    (h : ∀ i, agree i = true ↔ P i) (bound : Nat) :
    IsLongestPrefix P bound (agreeRun agree bound 0) := by
  refine ⟨agreeRun_le agree bound 0, fun i hi => ?_, fun hlt => ?_⟩
  · have hagree := agreeRun_agrees agree bound 0 i hi
    rwa [Nat.zero_add, h] at hagree
  · have hstop := agreeRun_stops agree bound 0 hlt
    rwa [Nat.zero_add, ← Bool.not_eq_true, h] at hstop

/-- There is one longest agreeing run: a shorter one stops where the longer one agrees. -/
theorem IsLongestPrefix.unique {P : Nat → Prop} {bound k l : Nat} (hk : IsLongestPrefix P bound k)
    (hl : IsLongestPrefix P bound l) : k = l := by
  obtain ⟨hkb, hkagree, hkstop⟩ := hk
  obtain ⟨hlb, hlagree, hlstop⟩ := hl
  rcases Nat.lt_trichotomy k l with hlt | heq | hgt
  · exact absurd (hlagree k hlt) (hkstop (hlt.trans_le hlb))
  · exact heq
  · exact absurd (hkagree l hgt) (hlstop (hgt.trans_le hkb))

/-- `PatLen(p)` counts the longest agreeing run from the start (45_matcher.md R153). -/
theorem isLongestPrefix_patLen (q : MatchRequest) (p : Nat) :
    IsLongestPrefix (fun i => srcByte q i = dictByte q (q.c.toNat - p + i % p)) q.src.length
      (patLen q p) :=
  isLongestPrefix_agreeRun (fun _ => beq_iff_eq) _

/-- `SubLen(s)` counts the longest agreeing run from the start (45_matcher.md R154). -/
theorem isLongestPrefix_subLen (q : MatchRequest) (s : Nat) :
    IsLongestPrefix (fun i => srcByte q i = dictByte q (s + i))
      (min q.src.length (if s < q.c.toNat then q.c.toNat - s else q.extent.toNat - s)) (subLen q s) :=
  isLongestPrefix_agreeRun (fun _ => beq_iff_eq) _

theorem patternCandidate_iff {q : MatchRequest} {p k : Nat} :
    PatternCandidate q p k ↔ 1 ≤ p ∧ p ≤ maxPeriod q ∧ patLen q p = k := by
  simp only [PatternCandidate, maxPeriod, le_min_iff, and_assoc]
  refine and_congr_right fun _ => and_congr_right fun _ => and_congr_right fun _ =>
    and_congr_right fun _ => ⟨(isLongestPrefix_patLen q p).unique, ?_⟩
  rintro rfl
  exact isLongestPrefix_patLen q p

theorem substringCandidate_iff {q : MatchRequest} {s k : Nat} :
    SubstringCandidate q s k ↔ s < q.extent.toNat ∧ subLen q s = k := by
  refine and_congr_right fun _ => ⟨(isLongestPrefix_subLen q s).unique, ?_⟩
  rintro rfl
  exact isLongestPrefix_subLen q s

/-! ### Every answer conforms -/

theorem PatternCandidate.le_patternSearch {q : MatchRequest} {p k : Nat} (h : PatternCandidate q p k) :
    k ≤ (patternSearch q).1 := by
  obtain ⟨hpos, hmax, rfl⟩ := patternCandidate_iff.1 h
  exact (patternSearch_spec q).1 p hpos (by omega)

theorem SubstringCandidate.le_substringSearch {q : MatchRequest} {s k : Nat}
    (h : SubstringCandidate q s k) : k ≤ (substringSearch q).1 := by
  obtain ⟨hs, rfl⟩ := substringCandidate_iff.1 h
  exact (substringSearch_spec q).1 s hs

/-- What may be answered to a valid request conforms (45_matcher.md R155, R156). -/
theorem Answers.conforms {q : MatchRequest} {r : MatchResponse} (h : Answers q r) (hwf : q.wf = true)
    (hvalid : requestValid q = true) : Conforms q r := by
  rw [Conforms, if_pos (requestValid_iff.1 hvalid)]
  cases h with
  | none noPattern noSubstring =>
    exact ⟨fun p k hk => hk.le_patternSearch.trans noPattern.le,
      fun s k hk => hk.le_substringSearch.trans noSubstring.le, rfl, rfl, rfl⟩
  | @pattern p pos inRange maximal nonempty notShorter =>
    rw [patternResponse_len_toNat hwf, patternResponse_period_toNat inRange,
      patternResponse_start_toNat hwf hvalid pos]
    exact ⟨fun p k hk => hk.le_patternSearch.trans maximal.ge,
      fun s k hk => hk.le_substringSearch.trans notShorter,
      nonempty, patternCandidate_iff.2 ⟨pos, inRange, rfl⟩, rfl⟩
  | @substring s visible maximal longer =>
    rw [substringResponse_len_toNat hwf, substringResponse_start_toNat hwf hvalid visible]
    exact ⟨fun p k hk => hk.le_patternSearch.trans longer.le,
      fun s k hk => hk.le_substringSearch.trans maximal.ge,
      Nat.zero_lt_of_lt longer, substringCandidate_iff.2 ⟨visible, rfl⟩, rfl,
      fun p k hk => hk.le_patternSearch.trans_lt longer⟩

/-- The answer to an invalid request (45_matcher.md R151). -/
theorem findMatch_of_invalid (choice : MatcherChoice) (draw : Nat) {q : MatchRequest}
    (h : requestValid q = false) : findMatch choice draw q = ⟨.invalid, 0, 0, 0⟩ := by
  cases choice with
  | reference => simp only [findMatch, findBestMatch, h]; rfl
  | any => simp only [findMatch, findAnyBestMatch, h]; rfl

theorem findMatch_conforms (choice : MatcherChoice) (draw : Nat) {q : MatchRequest} (hwf : q.wf = true) :
    Conforms q (findMatch choice draw q) := by
  cases hvalid : requestValid q with
  | true => exact (findMatch_answers choice draw hvalid).conforms hwf hvalid
  | false =>
    rw [findMatch_of_invalid choice draw hvalid, Conforms, if_neg]
    rw [← requestValid_iff, hvalid]
    decide

/-! ### The reference Matcher takes the first -/

/-- A PATTERN answer of the reference Matcher is what the pattern search found. -/
theorem findBestMatch_of_pattern {q : MatchRequest} (h : (findBestMatch q).kind = .pattern) :
    findBestMatch q = patternResponse q (patternSearch q).1 (patternSearch q).2 ∧
      0 < (patternSearch q).1 := by
  unfold findBestMatch at h ⊢
  dsimp only at h ⊢
  split_ifs at h ⊢ with hvalid hfull hzero hle
  · exact ⟨rfl, hfull.2⟩
  · cases h
  · exact ⟨rfl, by omega⟩
  · cases h
  · cases h

/-- A SUBSTRING answer of the reference Matcher is what the substring search found. -/
theorem findBestMatch_of_substring {q : MatchRequest} (h : (findBestMatch q).kind = .substring) :
    findBestMatch q = substringResponse (substringSearch q).1 (substringSearch q).2 ∧
      0 < (substringSearch q).1 := by
  unfold findBestMatch at h ⊢
  dsimp only at h ⊢
  split_ifs at h ⊢ with hvalid hfull hzero hle
  · cases h
  · cases h
  · cases h
  · exact ⟨rfl, by omega⟩
  · cases h

/-! ### What lies past the extent is not read -/

section
variable {q : MatchRequest} {dict : List Byte}

/-- `PatLen` reads the dictionary behind the cursor only (45_matcher.md R153). -/
theorem patLen_congr_dict (hdict : ∀ j, j < q.c.toNat → dict.getD j 0 = dictByte q j) {p : Nat}
    (hpos : 1 ≤ p) (hp : p ≤ q.c.toNat) : patLen { q with dict := dict } p = patLen q p := by
  refine agreeRun_congr _ _ fun i _ _ => ?_
  have hmod : i % p < p := Nat.mod_lt i hpos
  have hbehind : q.c.toNat - p + i % p < q.c.toNat := by omega
  exact congrArg (srcByte q i == ·) (hdict _ hbehind)

/-- `SubLen` reads the dictionary below the extent only (45_matcher.md R154). -/
theorem subLen_congr_dict (hvalid : q.c.toNat ≤ q.extent.toNat)
    (hdict : ∀ j, j < q.extent.toNat → dict.getD j 0 = dictByte q j) (s : Nat) :
    subLen { q with dict := dict } s = subLen q s := by
  have hbound : s + substringBound q s ≤ max s q.extent.toNat := by
    unfold substringBound
    split_ifs <;> omega
  refine agreeRun_congr _ _ fun i _ hi => ?_
  have hi' : i < 0 + min q.src.length (substringBound q s) := hi
  have hvisible : s + i < q.extent.toNat := by omega
  exact congrArg (srcByte q i == ·) (hdict _ hvisible)

theorem findMatch_congr_dict (choice : MatcherChoice) (draw : Nat) (hvalid : requestValid q = true)
    (hlen : q.extent.toNat ≤ dict.length)
    (hdict : ∀ j, j < q.extent.toNat → dict.getD j 0 = dictByte q j) :
    findMatch choice draw { q with dict := dict } = findMatch choice draw q := by
  obtain ⟨hc, -⟩ := requestValid_iff.1 hvalid
  have hvalid' : requestValid { q with dict := dict } = true := requestValid_iff.2 ⟨hc, hlen⟩
  have hpat : ∀ p, 1 ≤ p → p < 1 + maxPeriod q → patLen { q with dict := dict } p = patLen q p :=
    fun p hpos hp => patLen_congr_dict (fun j hj => hdict j (by omega)) hpos
      (by have := maxPeriod_le_cursor q; omega)
  have hsub := subLen_congr_dict hc hdict
  have hpattern : patternSearch { q with dict := dict } = patternSearch q :=
    searchLoop_congr _ _ _ _ hpat
  have hsubstring : substringSearch { q with dict := dict } = substringSearch q :=
    searchLoop_congr _ _ _ _ fun s _ _ => hsub s
  cases choice with
  | reference =>
    simp only [findMatch, findBestMatch, hvalid, hvalid', hpattern, hsubstring]
    rfl
  | any =>
    have hperiods : ∀ k, maximalCandidates (patLen { q with dict := dict }) k (maxPeriod q) 1 =
        maximalCandidates (patLen q) k (maxPeriod q) 1 := fun k => maximalCandidates_congr _ _ _ hpat
    have hstarts : ∀ k, maximalCandidates (subLen { q with dict := dict }) k q.extent.toNat 0 =
        maximalCandidates (subLen q) k q.extent.toNat 0 :=
      fun k => maximalCandidates_congr _ _ _ fun s _ _ => hsub s
    have hmax : maxPeriod { q with dict := dict } = maxPeriod q := rfl
    simp only [findMatch, findAnyBestMatch, hvalid, hvalid', hpattern, hsubstring, hmax, hperiods,
      hstarts]
    rfl

end

/-! ### The corner cases -/

theorem maxPeriod_le_source (q : MatchRequest) : maxPeriod q ≤ q.src.length :=
  (Nat.min_le_left _ _).trans (Nat.min_le_right _ _)

/-- No answer is longer than the source (45_matcher.md R157). -/
theorem Answers.len_le {q : MatchRequest} {r : MatchResponse} (h : Answers q r) (hwf : q.wf = true) :
    r.len.toNat ≤ q.src.length := by
  cases h with
  | none => exact Nat.zero_le _
  | pattern => rw [patternResponse_len_toNat hwf]; exact patLen_le q _
  | substring =>
    rw [substringResponse_len_toNat hwf]; exact (subLen_le q _).trans (Nat.min_le_left _ _)

/-- An empty source has no match (45_matcher.md R157). -/
theorem Answers.eq_none_of_source_empty {q : MatchRequest} {r : MatchResponse} (h : Answers q r)
    (hsrc : q.src = []) : r = emptyResponse .none := by
  have hlen : q.src.length = 0 := by rw [hsrc]; rfl
  cases h with
  | none => rfl
  | @pattern p _ _ _ nonempty =>
    have := patLen_le q p
    omega
  | @substring s _ _ longer =>
    have := (subLen_le q s).trans (Nat.min_le_left _ _)
    omega

/-- A PATTERN has a period from 1 up to the greatest one (45_matcher.md R153). -/
theorem Answers.period_of_pattern {q : MatchRequest} {r : MatchResponse} (h : Answers q r)
    (hkind : r.kind = .pattern) : 1 ≤ r.period.toNat ∧ r.period.toNat ≤ maxPeriod q := by
  cases h with
  | none => cases hkind
  | pattern pos inRange => rw [patternResponse_period_toNat inRange]; exact ⟨pos, inRange⟩
  | substring => cases hkind

/-- A SUBSTRING starts below the extent (45_matcher.md R154). -/
theorem Answers.extent_pos_of_substring {q : MatchRequest} {r : MatchResponse} (h : Answers q r)
    (hkind : r.kind = .substring) : 0 < q.extent.toNat := by
  cases h with
  | none => cases hkind
  | pattern => cases hkind
  | substring visible => exact Nat.zero_lt_of_lt visible

end Sys2Proof.Machine

namespace Sys2Proof.Proofs
open Sys2Proof Sys2Proof.Machine

/-- Settles O48: the reference Matcher is one choice of `findMatch`. -/
theorem referenceMatcherConforms : Obligations.ReferenceMatcherConforms :=
  fun _ => findMatch_conforms .reference 0

/-- Settles O49: the Matcher that draws is the other. -/
theorem everyDrawConforms : Obligations.EveryDrawConforms :=
  fun draw _ => findMatch_conforms .any draw

/-- Settles O50: the searches keep the first candidate of the greatest length, so an earlier one is
shorter. -/
theorem referenceMatcherTakesTheFirst : Obligations.ReferenceMatcherTakesTheFirst := by
  intro q hwf hvalid
  dsimp only
  refine ⟨fun hkind p hp hcand => ?_, fun hkind s hs hcand => ?_⟩
  · obtain ⟨hr, hpos⟩ := findBestMatch_of_pattern hkind
    obtain ⟨-, -, hzero | ⟨hp1, hpmax, hlen, hfirst⟩⟩ := patternSearch_spec q
    · omega
    · obtain ⟨hp0, -, hk⟩ := patternCandidate_iff.1 hcand
      rw [← hlen] at hr hfirst
      rw [hr, patternResponse_period_toNat (by omega)] at hp
      rw [hr, patternResponse_len_toNat hwf] at hk
      exact absurd hk (hfirst p hp0 hp).ne
  · obtain ⟨hr, hpos⟩ := findBestMatch_of_substring hkind
    obtain ⟨-, -, hzero | ⟨hvis, hlen, hfirst⟩⟩ := substringSearch_spec q
    · omega
    · obtain ⟨-, hk⟩ := substringCandidate_iff.1 hcand
      rw [← hlen] at hr hfirst
      rw [hr, substringResponse_start_toNat hwf hvalid hvis] at hs
      rw [hr, substringResponse_len_toNat hwf] at hk
      exact absurd hk (hfirst s hs).ne

/-- Settles O51: both lengths are counts of `agreeRun`. -/
theorem matchLengthsAreLongestPrefixes : Obligations.MatchLengthsAreLongestPrefixes :=
  fun q => ⟨isLongestPrefix_patLen q, isLongestPrefix_subLen q⟩

/-- Settles O52: either bound broken makes the request invalid. -/
theorem invalidAndCancelledRequests : Obligations.InvalidAndCancelledRequests := by
  intro choice draw q
  refine ⟨fun hbroken => ?_, rfl⟩
  have hinvalid : requestValid q = false := by
    rw [← Bool.not_eq_true, requestValid_iff]
    omega
  exact congrArg some (findMatch_of_invalid choice draw hinvalid)

/-- Settles O53: both searches and both lists of candidates are the same. -/
theorem matcherReadsOnlyTheVisibleDictionary : Obligations.MatcherReadsOnlyTheVisibleDictionary :=
  fun choice draw _ _ => findMatch_congr_dict choice draw

/-- Settles O54: each case rules out the kinds of answer it names. -/
theorem matcherCornerCases : Obligations.MatcherCornerCases := by
  intro choice draw q hwf hvalid r
  have h : Answers q r := findMatch_answers choice draw hvalid
  refine ⟨h.eq_none_of_source_empty, fun hc hkind => ?_, fun hextent hkind => ?_,
    fun hkind => (h.period_of_pattern hkind).2.trans (maxPeriod_le_source q), h.len_le hwf⟩
  · obtain ⟨hpos, hmax⟩ := h.period_of_pattern hkind
    have hcursor := maxPeriod_le_cursor q
    have hzero : q.c.toNat = 0 := by rw [hc]; rfl
    omega
  · have hpos := h.extent_pos_of_substring hkind
    rw [hextent] at hpos
    exact absurd hpos (by decide)

/-- Settles O55: by computation; the third search reads nothing of the continuation. -/
theorem matcherWorkedExamples : Obligations.MatcherWorkedExamples :=
  ⟨by decide, by decide, fun _ => rfl⟩

end Sys2Proof.Proofs
end
